-- ==== Sys2Proof/Word.lean ====
section
/-! DEFINITION. The word of the TSC and the names of its four general registers. -/

namespace Sys2Proof

/-- A word: 16 bits, the unit of registers, of memory and of the two ports (rules R5, R6, R9). -/
abbrev Word := BitVec 16

/-- The four general registers `$0` to `$3` (rule R11). None of them is hardwired; `$2` receives the
link of JAL and JRL (rule R13). -/
inductive Reg where
  | r0
  | r1
  | r2
  | r3
deriving DecidableEq, Repr

end Sys2Proof
end

