-- ==== Sys2Proof/Config.lean ====
section
/-! DEFINITION. What an implementation fixes: the parameters of 92_eei_decisions.md, at the spec's
defaults where it gives one and without a body where it leaves the value open. -/

namespace Sys2Proof

/-- The parameter LAYOUT (decision D1): the lowest bit of each field of the instruction word. The
widths are those of rule R52 and are no parameter. -/
structure Layout where
  opLo : Nat
  rsLo : Nat
  rtLo : Nat
  rdLo : Nat
  fnLo : Nat
  immLo : Nat
  targetLo : Nat
deriving DecidableEq, Repr

/-- The parameter UNUSED_FIELDS (decision D2, rule R60). -/
inductive UnusedFields where
  | ignored
  | mustBeZero
deriving DecidableEq, Repr

/-- The parameter JUMP_REGION (decision D12, rule R150): whose four high bits a JMP or JAL keeps. -/
inductive JumpRegion where
  | next
  | self
deriving DecidableEq, Repr

/-- The parameter JRL_SELF_LINK (decision D13, rule R155): the two readings of `JRL $2`. -/
inductive JrlSelfLink where
  | readFirst
  | writeFirst
deriving DecidableEq, Repr, Inhabited

/-- The field order of rules R53, R54 and R55. PRESUMED (assumption 1): the spec itself takes it from
general knowledge, Figure 1 of the source being lost. Unsafe. -/
def Config.layout : Layout where
  opLo := 12
  rsLo := 10
  rtLo := 8
  rdLo := 6
  fnLo := 0
  immLo := 0
  targetLo := 0

/-- Register fields an instruction does not use take no part in decoding: the default of decision D2
(assumption 2). Unsafe. -/
def Config.unusedFields : UnusedFields := .ignored

/-- MEM_WORDS, the number of populated words, from address 0: the default of decision D4
(rule R39, assumption 4). Unsafe on a platform with less memory. -/
def Config.memWords : Nat := 65536

/-- RESET_PC: the default of decision D9 (rule R24, assumption 9). Unsafe. -/
def Config.resetPc : Word := 0x0000

/-- JUMP_REGION: the default of decision D12 (rule R150, assumption 12). Unsafe for a jump at an
address whose low twelve bits are 0xFFF, and without effect elsewhere. -/
def Config.jumpRegion : JumpRegion := .next

/-- JRL_SELF_LINK: open, with no default (decision D13, rule R155, assumption 13). It has no body, so
whatever is proved of `JRL $2` holds under both readings. Safe. -/
opaque Config.jrlSelfLink : JrlSelfLink

/-- Free value: the word the output port shows after the acknowledge of the n-th WWD. The spec does not
say whether the port keeps its word after the handshake (rule R121, N7, assumption 16). Safe. -/
opaque Config.outPortAfterAck : Nat → Option Word

/-- Free value: the output signal after the acknowledge of the n-th WWD. The spec does not say when the
signal is deasserted again (rule R121, N7, assumption 16). Safe. -/
opaque Config.outSignalAfterAck : Nat → Bool

end Sys2Proof
end

