-- ==== Sys2Proof/Machine/Operands.lean ====
section
/-! DEFINITION. How an instruction turns its fields into operands (rule R59), the address it forms
(rule R38) and the targets of branches and jumps (rules R140, R150). -/

namespace Sys2Proof.Machine

/-- `sext_16(v)`: bit 7 repeated eight times above the eight bits (rules R7, R59). -/
def sext16 (v : BitVec 8) : Word := v.signExtend 16

/-- `zext_16(v)`: eight zeros above the eight bits (rules R7, R59). -/
def zext16 (v : BitVec 8) : Word := 0#8 ++ v

/-- LHI's operand: the eight bits above eight zeros (rules R59, R113). -/
def highByte (v : BitVec 8) : Word := v ++ 0#8

/-- The one addressing mode: base plus signed displacement in words, modulo 65536 (rule R38). -/
def effectiveAddress (base : Word) (offset : BitVec 8) : Word := base + sext16 offset

/-- A branch's target: the address after the branch plus the signed offset in words, modulo 65536
(rule R140). -/
def branchTarget (npc : Word) (offset : BitVec 8) : Word := npc + sext16 offset

/-- The address whose four high bits a JMP or JAL at `pc` keeps (rule R150, decision D12). -/
def regionAddress (region : JumpRegion) (pc : Word) : Word :=
  match region with
  | .next => pc + 1
  | .self => pc

/-- The target of a JMP or JAL at `pc`: four high bits kept, the low twelve replaced (rule R150). -/
def jumpTarget (region : JumpRegion) (pc : Word) (target : BitVec 12) : Word :=
  (regionAddress region pc).extractLsb' 12 4 ++ target

/-- SHL's result: the low fifteen bits above a zero (rule R107). -/
def shiftLeftOne (v : Word) : Word := v.extractLsb' 0 15 ++ 0#1

/-- SHR's result: bit 15 above the high fifteen bits, an arithmetic shift (rule R108). -/
def shiftRightOne (v : Word) : Word := v.extractLsb' 15 1 ++ v.extractLsb' 1 15

/-- SUB's result, `rs + ~rt + 1` (rule R102). -/
def subtract (a b : Word) : Word := a + ~~~b + 1

/-- TCP's result, `~rs + 1` (rule R106). -/
def negate (a : Word) : Word := ~~~a + 1

end Sys2Proof.Machine
end

