-- ==== Sys2Proof/Machine/State.lean ====
section
/-! DEFINITION. The state of one TSC machine and its environment as plain data, the reasons a step can
stop, and the state after reset. -/

namespace Sys2Proof.Machine

/-- The general registers `$0` to `$3` (rule R11). -/
structure Regs where
  r0 : Word
  r1 : Word
  r2 : Word
  r3 : Word
deriving DecidableEq, Repr

/-- Memory: the words that hold a value, as pairs of word address and word (rules R22, R30, R31). The
unit of address is the word; no byte exists (rule R36, assumption 5). An address that is not listed holds
no value (rule R24). -/
abbrev Memory := List (Nat × Word)

/-- The wait of a port instruction (rules R23, R47, R185). -/
inductive PortWait where
  /-- No RWD or WWD is waiting. -/
  | idle
  /-- An RWD to this register waits for the input signal (rule R124). -/
  | input (rd : Reg)
  /-- A WWD waits for the acknowledge (rule R125). -/
  | output
deriving DecidableEq, Repr

/-- Everything the spec gives the machine (rule R10), and the answers its environment will give (rules
R124 to R126, R173), held as lists that the step reads. -/
structure State where
  /-- `x[0]` to `x[3]` (rule R11). -/
  regs : Regs
  /-- The word address of the instruction to execute (rule R14). -/
  pc : Word
  /-- `M` (rule R30). -/
  mem : Memory
  /-- `IE`: interrupts enabled (rule R18). -/
  ie : Bool
  /-- HLT has been executed and the machine does not fetch (rule R19). -/
  halted : Bool
  /-- Which port instruction waits, if any (rules R23, R47). -/
  portWait : PortWait
  /-- The word on the output port (rules R10, R121); `none` where the port holds no value (rule R24). -/
  outPort : Option Word
  /-- The output signal, driven by the machine (rules R10, R121). -/
  outSignal : Bool
  /-- The output trace, oldest word first (rules R125, R126). -/
  out : List Word
  /-- The input device, one entry for each step in which an RWD polls it: `some v` is the input signal
  with the word `v`, `none` is no signal; the empty list is a device that never signals (rules R120,
  R124, R126). -/
  inEvents : List (Option Word)
  /-- The output device, one entry for each step in which a WWD polls it: whether the acknowledge is
  given; the empty list is a device that never acknowledges (rules R121, R125). -/
  ackEvents : List Bool
  /-- The input `irq`, one entry for each step of a machine that is not halted; the empty list is an
  environment that never sets it (rules R173, R175). -/
  irqEvents : List Bool
deriving DecidableEq, Repr

/-- Why a machine stops: the model-level stops of rule R171. They are no events of the hardware. -/
inductive Fault where
  /-- Raised by the decoding step: the fetched word `w` is no instruction (rule R61). Safe. -/
  | illegalInstruction (w : Word)
  /-- Raised by fetch, LWD and SWD: the address is at or beyond MEM_WORDS, where the spec gives no step
  (rule R39). Safe. -/
  | unpopulatedAccess (address : Word)
  /-- Raised by fetch and LWD: nothing was loaded at or stored to the address (rules R24, R171). Safe. -/
  | uninitialisedMemory (address : Word)
deriving DecidableEq, Repr

/-- Why the model gives a step no meaning. -/
inductive Refusal where
  /-- Raised by a dispatch arm without a meaning: there is none in this model. Safe. -/
  | notModelled (mnemonic : String)
  /-- Raised by the step in which an enabled interrupt is taken while INTERRUPT_ENTRY, an open parameter
  with no default, has no value (rules R171, R175, R176, decision D15). Safe. -/
  | interruptEntryOpen
deriving DecidableEq, Repr

/-- The outcome of an instruction or a step. -/
abbrev Result := Host.Outcome State Fault Refusal

/-- The machine after reset (rules R24, R190): the pc at RESET_PC, interrupts disabled, not halted, no
port instruction waiting, no value on the output port, the output signal deasserted, the output trace
empty, no memory word listed. The four registers are 0: DESIGN CHOICE (assumption 10), unsafe; the spec
gives them no value. The environment gives no answers: the default premise of rule R175 for `irq`, and
no device activity (assumptions 15 and 19). -/
def State.reset : State where
  regs := ⟨0, 0, 0, 0⟩
  pc := Config.resetPc
  mem := []
  ie := false
  halted := false
  portWait := .idle
  outPort := none
  outSignal := false
  out := []
  inEvents := []
  ackEvents := []
  irqEvents := []

end Sys2Proof.Machine
end

