-- ==== Sys2Proof/Machine/Ops.lean ====
section
/-! DEFINITION. The named operations on the state: registers, memory, the program counter, the two
ports, the interrupt request, and taking an interrupt. -/

namespace Sys2Proof.Machine

/-! ### Registers (rules R11, R12) -/

def Regs.get (x : Regs) : Reg → Word
  | .r0 => x.r0
  | .r1 => x.r1
  | .r2 => x.r2
  | .r3 => x.r3

def Regs.set (x : Regs) (r : Reg) (v : Word) : Regs :=
  match r with
  | .r0 => { x with r0 := v }
  | .r1 => { x with r1 := v }
  | .r2 => { x with r2 := v }
  | .r3 => { x with r3 := v }

/-- `x[r]`. No register is hardwired, `$0` least of all (rule R11); a register that nothing has written
holds its reset value, and reading it is no stop (assumption 10). -/
def State.reg (s : State) (r : Reg) : Word := s.regs.get r

/-- `x[r] <- v`. -/
def State.setReg (s : State) (r : Reg) (v : Word) : State := { s with regs := s.regs.set r v }

/-! ### Memory (rules R30 to R39) -/

/-- The canonical form: addresses strictly rising and all of them populated, so that equal memories are
equal lists. An unlisted address holds no value, so no entry repeats what an unlisted address reads as. -/
abbrev Memory.wf (m : Memory) : Prop :=
  (m.map Prod.fst).Pairwise (· < ·) ∧ ∀ c ∈ m, c.1 < Config.memWords

/-- The word at an address, if it holds one. An unlisted address holds no value (rule R24, decision
D10). -/
def Memory.lookup : Memory → Nat → Option Word
  | [], _ => none
  | (k, v) :: m, a => if k = a then some v else Memory.lookup m a

/-- Put a word at an address, keeping the addresses rising. -/
def Memory.insert : Memory → Nat → Word → Memory
  | [], a, v => [(a, v)]
  | (k, w) :: m, a, v =>
      if a < k then (a, v) :: (k, w) :: m
      else if a = k then (a, v) :: m
      else (k, w) :: Memory.insert m a v

/-- `M[a]`: what one word of memory holds. -/
def State.word (s : State) (a : Word) : Option Word := s.mem.lookup a.toNat

/-- `MemRead(a, 1)` with `words` populated words (rules R33, R39, R171). -/
def memRead (words : Nat) (a : Word) (m : Memory) : Except Fault Word :=
  if a.toNat < words then
    match m.lookup a.toNat with
    | some v => .ok v
    | none => .error (.uninitialisedMemory a)
  else .error (.unpopulatedAccess a)

/-- `MemWrite(a, 1, v)` with `words` populated words (rules R34, R39, R171). -/
def memWrite (words : Nat) (a v : Word) (m : Memory) : Except Fault Memory :=
  if a.toNat < words then .ok (m.insert a.toNat v) else .error (.unpopulatedAccess a)

/-! ### The program counter (rules R15, R16) -/

/-- `npc`: the address of the next instruction in memory, modulo 65536 (rule R15, decision D8). -/
def State.npc (s : State) : Word := s.pc + 1

/-- `pc <- t`. -/
def State.jumpTo (s : State) (t : Word) : State := { s with pc := t }

/-- `pc <- npc`. -/
def State.advance (s : State) : State := s.jumpTo s.npc

/-- `x[rd] <- v; pc <- npc`: how every instruction with a register result ends (rules R100, R110,
R130). -/
def writeResult (rd : Reg) (v : Word) (s : State) : Result := .next (s.setReg rd v).advance

/-! ### The input port (rules R120, R122, R124) -/

/-- One step of an RWD to `rd`: if the device signals, the word is taken, the register written and the
pc advanced; if not, the instruction has not completed, and register and pc keep their values. -/
def pollInput (rd : Reg) (s : State) : Result :=
  match s.inEvents with
  | [] => .next { s with portWait := .input rd }
  | none :: es => .next { s with portWait := .input rd, inEvents := es }
  | some v :: es => writeResult rd v { s with portWait := .idle, inEvents := es }

/-! ### The output port (rules R121, R123, R125) -/

/-- The write of a WWD: the word goes to the port, the output signal is asserted, and the trace records
the word, all before the wait (rule R125). -/
def driveOutput (v : Word) (s : State) : State :=
  { s with outPort := some v, outSignal := true, out := s.out ++ [v] }

/-- The end of the handshake. What the port and the output signal show from now on is not in the spec:
two free values, one draw for each word of the trace (assumption 16). -/
def releaseOutput (s : State) : State :=
  { s with
    portWait := .idle
    outPort := Config.outPortAfterAck s.out.length
    outSignal := Config.outSignalAfterAck s.out.length }

/-- One step of the wait of a WWD: if the device acknowledges, the pc advances; if not, it keeps its
value. -/
def pollOutput (s : State) : Result :=
  match s.ackEvents with
  | [] => .next { s with portWait := .output }
  | false :: es => .next { s with portWait := .output, ackEvents := es }
  | true :: es => .next (releaseOutput { s with ackEvents := es }).advance

/-! ### Interrupts (rules R173 to R177) -/

/-- The input `irq` at this step. -/
def State.irq (s : State) : Bool := s.irqEvents.headD false

/-- The environment's next `irq` is due. -/
def State.sampleIrq (s : State) : State := { s with irqEvents := s.irqEvents.tail }

/-- An interrupt is taken at this step: `IE` is 1 and so is `irq` (rules R174, R177). -/
def State.interruptTaken (s : State) : Bool := s.ie && s.irq

/-- The parameter INTERRUPT_ENTRY: open, with no default (rule R175, decision D15). A platform that
supplies the transformer puts it here. -/
def interruptEntry : Option (State → State) := none

/-- Taking an interrupt (rule R175): the transformer if the platform supplies one; without one the step
is refused (rules R171, R176). Nothing is saved and no address is invented (rule R20). -/
def takeInterrupt (entry : Option (State → State)) (s : State) : Result :=
  match entry with
  | some f => .next (f s)
  | none => .refused .interruptEntryOpen

end Sys2Proof.Machine
end

