-- ==== Sys2Proof/Machine/AluImmediate.lean ====
section
/-! DEFINITION. Immediate arithmetic and logic (41_alu_immediate.md). The destination is `rt`
(rule R110). -/

namespace Sys2Proof.Machine

/-- ADI (rule R111): the immediate is sign-extended. -/
def execAdi (rt rs : Reg) (imm : BitVec 8) (s : State) : Result :=
  writeResult rt (s.reg rs + sext16 imm) s

/-- ORI (rule R112): the immediate is zero-extended. -/
def execOri (rt rs : Reg) (imm : BitVec 8) (s : State) : Result :=
  writeResult rt (s.reg rs ||| zext16 imm) s

/-- LHI (rule R113): no register is read and the whole destination is replaced. -/
def execLhi (rt : Reg) (imm : BitVec 8) (s : State) : Result := writeResult rt (highByte imm) s

end Sys2Proof.Machine
end

