-- ==== Sys2Proof/Machine/AluRegister.lean ====
section
/-! DEFINITION. Register-to-register arithmetic and logic (40_alu_register.md). Sources are read before
the destination is written, the pc advances, and nothing else changes (rule R100); all sums wrap
(rule R109). -/

namespace Sys2Proof.Machine

/-- ADD (rule R101). -/
def execAdd (rd rs rt : Reg) (s : State) : Result := writeResult rd (s.reg rs + s.reg rt) s

/-- SUB (rule R102): `rs` minus `rt`. -/
def execSub (rd rs rt : Reg) (s : State) : Result :=
  writeResult rd (subtract (s.reg rs) (s.reg rt)) s

/-- AND (rule R103). -/
def execAnd (rd rs rt : Reg) (s : State) : Result := writeResult rd (s.reg rs &&& s.reg rt) s

/-- ORR (rule R104; conflict C2: OR, not subtraction). -/
def execOrr (rd rs rt : Reg) (s : State) : Result := writeResult rd (s.reg rs ||| s.reg rt) s

/-- NOT (rule R105). -/
def execNot (rd rs : Reg) (s : State) : Result := writeResult rd (~~~s.reg rs) s

/-- TCP (rule R106). -/
def execTcp (rd rs : Reg) (s : State) : Result := writeResult rd (negate (s.reg rs)) s

/-- SHL (rule R107; conflict C3: nothing is inverted). -/
def execShl (rd rs : Reg) (s : State) : Result := writeResult rd (shiftLeftOne (s.reg rs)) s

/-- SHR (rule R108). -/
def execShr (rd rs : Reg) (s : State) : Result := writeResult rd (shiftRightOne (s.reg rs)) s

end Sys2Proof.Machine
end

