-- ==== Sys2Proof/Machine/Flags.lean ====
section
/-! DEFINITION. The TSC has no condition codes (rule R17): a branch tests registers. Here are the four
conditions (rules R141 to R144). -/

namespace Sys2Proof.Machine

/-- BNE: all sixteen bits are compared (rule R141). -/
def notEqual (a b : Word) : Bool := a != b

/-- BEQ: all sixteen bits are compared (rule R142). -/
def equal (a b : Word) : Bool := a == b

/-- BGZ: greater than zero in two's complement (rule R143). -/
def greaterThanZero (a : Word) : Bool := decide (0 < a.toInt)

/-- BLZ: less than zero in two's complement (rule R144). -/
def lessThanZero (a : Word) : Bool := decide (a.toInt < 0)

end Sys2Proof.Machine
end

