-- ==== Sys2Proof/Machine/Branch.lean ====
section
/-! DEFINITION. The conditional branches (44_branch.md). -/

namespace Sys2Proof.Machine

/-- The target if the condition holds, else the instruction after the branch; there is no delay slot and
nothing but the pc changes (rule R140). -/
def branchIf (taken : Bool) (offset : BitVec 8) (s : State) : Result :=
  .next (s.jumpTo (if taken then branchTarget s.npc offset else s.npc))

/-- BNE (rule R141). -/
def execBne (rs rt : Reg) (offset : BitVec 8) (s : State) : Result :=
  branchIf (notEqual (s.reg rs) (s.reg rt)) offset s

/-- BEQ (rule R142). -/
def execBeq (rs rt : Reg) (offset : BitVec 8) (s : State) : Result :=
  branchIf (equal (s.reg rs) (s.reg rt)) offset s

/-- BGZ (rule R143). -/
def execBgz (rs : Reg) (offset : BitVec 8) (s : State) : Result :=
  branchIf (greaterThanZero (s.reg rs)) offset s

/-- BLZ (rule R144). -/
def execBlz (rs : Reg) (offset : BitVec 8) (s : State) : Result :=
  branchIf (lessThanZero (s.reg rs)) offset s

end Sys2Proof.Machine
end

