-- ==== Sys2Proof/Machine/IoPorts.lean ====
section
/-! DEFINITION. The port instructions (42_io_ports.md). -/

namespace Sys2Proof.Machine

/-- RWD (rule R122): waits for the input signal, then takes the word. -/
def execRwd (rd : Reg) (s : State) : Result := pollInput rd s

/-- WWD (rule R123): the write happens at once; the pc advances only with the acknowledge. -/
def execWwd (rs : Reg) (s : State) : Result := pollOutput (driveOutput (s.reg rs) s)

end Sys2Proof.Machine
end

