-- ==== Sys2Proof/Machine/Jump.lean ====
section
/-! DEFINITION. Jumps, calls and returns (45_jump.md). -/

namespace Sys2Proof.Machine

/-- `x[2] <- npc`: the link of JAL and JRL is always `$2` (rules R13, R152, R154). -/
def State.link (s : State) : State := s.setReg .r2 s.npc

/-- JMP (rule R151). -/
def execJmp (target : BitVec 12) (s : State) : Result :=
  .next (s.jumpTo (jumpTarget Config.jumpRegion s.pc target))

/-- JAL (rule R152). -/
def execJal (target : BitVec 12) (s : State) : Result :=
  .next (s.link.jumpTo (jumpTarget Config.jumpRegion s.pc target))

/-- JPR (rule R153): all sixteen bits are used. -/
def execJpr (rs : Reg) (s : State) : Result := .next (s.jumpTo (s.reg rs))

/-- JRL under a given reading: the target register is read before or after the link is written. The two
differ for `JRL $2` alone (rules R154, R155). -/
def jumpAndLink (reading : JrlSelfLink) (rs : Reg) (s : State) : Result :=
  match reading with
  | .readFirst => .next (s.link.jumpTo (s.reg rs))
  | .writeFirst => .next (s.link.jumpTo (s.link.reg rs))

/-- JRL (rules R154, R155). The reading of `JRL $2` is the open parameter JRL_SELF_LINK; for the other
registers no parameter is asked, since the two assignments touch different registers. -/
def execJrl (rs : Reg) (s : State) : Result :=
  if rs = .r2 then jumpAndLink Config.jrlSelfLink rs s else jumpAndLink .readFirst rs s

end Sys2Proof.Machine
end

