-- ==== Sys2Proof/Machine/LoadStore.lean ====
section
/-! DEFINITION. Loads and stores (43_load_store.md). `rt` is the data register and `rs` the base
(rule R130). -/

namespace Sys2Proof.Machine

/-- LWD (rule R131). The base is read before the destination is written. -/
def execLwd (rt rs : Reg) (offset : BitVec 8) (s : State) : Result :=
  match memRead Config.memWords (effectiveAddress (s.reg rs) offset) s.mem with
  | .ok v => writeResult rt v s
  | .error f => .fault f

/-- SWD (rule R132). No register changes. -/
def execSwd (rt rs : Reg) (offset : BitVec 8) (s : State) : Result :=
  match memWrite Config.memWords (effectiveAddress (s.reg rs) offset) (s.reg rt) s.mem with
  | .ok m => .next { s with mem := m }.advance
  | .error f => .fault f

end Sys2Proof.Machine
end

