-- ==== Sys2Proof/Machine/System.lean ====
section
/-! DEFINITION. The system instructions (46_system.md). There is one mode and none of them is
privileged (rules R160, R180). -/

namespace Sys2Proof.Machine

/-- HLT (rule R161): the pc stays at the address of the HLT (decision D18, assumption 18). -/
def execHlt (s : State) : Result := .next { s with halted := true }

/-- ENI (rule R162; the effect is decision D14, assumption 14). -/
def execEni (s : State) : Result := .next { s with ie := true }.advance

/-- DSI (rule R163; that nothing else changes is decision D24, assumption 24). -/
def execDsi (s : State) : Result := .next { s with ie := false }.advance

end Sys2Proof.Machine
end

