-- ==== Sys2Proof/Syntax.lean ====
section
/-! DEFINITION. The instructions of the TSC, one constructor for each row of the opcode table. -/

namespace Sys2Proof

/-- The 26 instructions (rules R57, R58, R64). Operands stand in the order of the assembler format of
rule R64. A field that an instruction does not use is no operand (rule R60). Every operand has the
width of its field (rule R52), so every term of this type is a well-formed instruction; the ranges of
rule R67 are checked where a number is not yet a field, on the assembler line (WellFormed.lean). -/
inductive Instr where
  | add (rd rs rt : Reg)
  | sub (rd rs rt : Reg)
  | and (rd rs rt : Reg)
  | orr (rd rs rt : Reg)
  | not (rd rs : Reg)
  | tcp (rd rs : Reg)
  | shl (rd rs : Reg)
  | shr (rd rs : Reg)
  | adi (rt rs : Reg) (imm : BitVec 8)
  | ori (rt rs : Reg) (imm : BitVec 8)
  | lhi (rt : Reg) (imm : BitVec 8)
  | rwd (rd : Reg)
  | wwd (rs : Reg)
  | lwd (rt rs : Reg) (offset : BitVec 8)
  | swd (rt rs : Reg) (offset : BitVec 8)
  | bne (rs rt : Reg) (offset : BitVec 8)
  | beq (rs rt : Reg) (offset : BitVec 8)
  | bgz (rs : Reg) (offset : BitVec 8)
  | blz (rs : Reg) (offset : BitVec 8)
  | jmp (target : BitVec 12)
  | jal (target : BitVec 12)
  | jpr (rs : Reg)
  | jrl (rs : Reg)
  | hlt
  | eni
  | dsi
deriving DecidableEq, Repr

end Sys2Proof
end

