-- ==== Sys2Proof/Machine/Dispatch.lean ====
section
/-! DEFINITION. One arm per instruction, each a direct call of its meaning. -/

namespace Sys2Proof.Machine

def exec (i : Instr) (s : State) : Host.Outcome State Fault Refusal :=
  match i with
  | .add rd rs rt => Sys2Proof.Machine.execAdd rd rs rt s
  | .sub rd rs rt => Sys2Proof.Machine.execSub rd rs rt s
  | .and rd rs rt => Sys2Proof.Machine.execAnd rd rs rt s
  | .orr rd rs rt => Sys2Proof.Machine.execOrr rd rs rt s
  | .not rd rs => Sys2Proof.Machine.execNot rd rs s
  | .tcp rd rs => Sys2Proof.Machine.execTcp rd rs s
  | .shl rd rs => Sys2Proof.Machine.execShl rd rs s
  | .shr rd rs => Sys2Proof.Machine.execShr rd rs s
  | .adi rt rs imm => Sys2Proof.Machine.execAdi rt rs imm s
  | .ori rt rs imm => Sys2Proof.Machine.execOri rt rs imm s
  | .lhi rt imm => Sys2Proof.Machine.execLhi rt imm s
  | .rwd rd => Sys2Proof.Machine.execRwd rd s
  | .wwd rs => Sys2Proof.Machine.execWwd rs s
  | .lwd rt rs offset => Sys2Proof.Machine.execLwd rt rs offset s
  | .swd rt rs offset => Sys2Proof.Machine.execSwd rt rs offset s
  | .bne rs rt offset => Sys2Proof.Machine.execBne rs rt offset s
  | .beq rs rt offset => Sys2Proof.Machine.execBeq rs rt offset s
  | .bgz rs offset => Sys2Proof.Machine.execBgz rs offset s
  | .blz rs offset => Sys2Proof.Machine.execBlz rs offset s
  | .jmp target => Sys2Proof.Machine.execJmp target s
  | .jal target => Sys2Proof.Machine.execJal target s
  | .jpr rs => Sys2Proof.Machine.execJpr rs s
  | .jrl rs => Sys2Proof.Machine.execJrl rs s
  | .hlt => Sys2Proof.Machine.execHlt s
  | .eni => Sys2Proof.Machine.execEni s
  | .dsi => Sys2Proof.Machine.execDsi s

end Sys2Proof.Machine
end

