-- ==== Sys2Proof/WellFormed.lean ====
section
/-! DEFINITION. Assembler lines as written (operands still numbers and labels) and the check that says
which of them stand for an instruction: the operand shapes of rule R64 and the ranges of rules R65,
R66 and R67. An `Instr` needs no check of its own: its operands have the widths of their fields. -/

namespace Sys2Proof

/-- The 26 mnemonics of the opcode table (rules R57, R58, R63). -/
inductive Mnemonic where
  | ADD | SUB | AND | ORR | NOT | TCP | SHL | SHR
  | ADI | ORI | LHI | RWD | WWD | LWD | SWD
  | BNE | BEQ | BGZ | BLZ | JMP | JAL | JPR | JRL
  | HLT | ENI | DSI
deriving DecidableEq, Repr

/-- The mnemonic of an instruction. -/
def Instr.mnemonic : Instr → Mnemonic
  | .add _ _ _ => .ADD
  | .sub _ _ _ => .SUB
  | .and _ _ _ => .AND
  | .orr _ _ _ => .ORR
  | .not _ _ => .NOT
  | .tcp _ _ => .TCP
  | .shl _ _ => .SHL
  | .shr _ _ => .SHR
  | .adi _ _ _ => .ADI
  | .ori _ _ _ => .ORI
  | .lhi _ _ => .LHI
  | .rwd _ => .RWD
  | .wwd _ => .WWD
  | .lwd _ _ _ => .LWD
  | .swd _ _ _ => .SWD
  | .bne _ _ _ => .BNE
  | .beq _ _ _ => .BEQ
  | .bgz _ _ => .BGZ
  | .blz _ _ => .BLZ
  | .jmp _ => .JMP
  | .jal _ => .JAL
  | .jpr _ => .JPR
  | .jrl _ => .JRL
  | .hlt => .HLT
  | .eni => .ENI
  | .dsi => .DSI

/-- An operand of an assembler line (rule R63): a register number after the dollar sign, a number, or a
label, which stands here as the address it names. -/
inductive AsmOperand where
  | reg (n : Nat)
  | num (n : Int)
  | label (address : Word)
deriving DecidableEq, Repr

/-- An assembler line: a mnemonic and its operands, in the order written (rule R63). -/
structure AsmLine where
  mnemonic : Mnemonic
  operands : List AsmOperand
deriving DecidableEq, Repr

/-- What an operand place takes (rules R63, R64, R67). -/
inductive OperandKind where
  | register
  /-- ADI's immediate and the displacement of LWD and SWD: a number, -128 to +127. -/
  | signed8
  /-- The immediate of ORI and LHI: a number, 0 to 255. -/
  | unsigned8
  /-- A branch's offset: a number, -128 to +127, or a label in reach. -/
  | branchOffset
  /-- A jump's target: a number, 0 to 4095, or a label in the region. -/
  | jumpTarget
deriving DecidableEq, Repr

/-- The assembler format of each instruction (rule R64). -/
def Mnemonic.shape : Mnemonic → List OperandKind
  | .ADD => [.register, .register, .register]
  | .SUB => [.register, .register, .register]
  | .AND => [.register, .register, .register]
  | .ORR => [.register, .register, .register]
  | .NOT => [.register, .register]
  | .TCP => [.register, .register]
  | .SHL => [.register, .register]
  | .SHR => [.register, .register]
  | .ADI => [.register, .register, .signed8]
  | .ORI => [.register, .register, .unsigned8]
  | .LHI => [.register, .unsigned8]
  | .RWD => [.register]
  | .WWD => [.register]
  | .LWD => [.register, .register, .signed8]
  | .SWD => [.register, .register, .signed8]
  | .BNE => [.register, .register, .branchOffset]
  | .BEQ => [.register, .register, .branchOffset]
  | .BGZ => [.register, .branchOffset]
  | .BLZ => [.register, .branchOffset]
  | .JMP => [.jumpTarget]
  | .JAL => [.jumpTarget]
  | .JPR => [.register]
  | .JRL => [.register]
  | .HLT => []
  | .ENI => []
  | .DSI => []

/-- The offset the assembler computes for a label at `l` in a branch at `a`: `L - (a + 1)`, modulo
65536 (rules R65, R6). -/
def labelDistance (a l : Word) : Word := l - (a + 1)

/-- The check of one operand in a line at address `a`, for the place it stands in: registers 0 to 3
(rule R11), the ranges of rule R67, a branch label within -128 to +127 (rule R65), a jump label in the
4096-word region of the next instruction (rule R66). -/
def AsmOperand.fits (a : Word) : OperandKind → AsmOperand → Bool
  | .register, .reg n => decide (n < 4)
  | .signed8, .num n => decide (-128 ≤ n ∧ n ≤ 127)
  | .unsigned8, .num n => decide (0 ≤ n ∧ n ≤ 255)
  | .branchOffset, .num n => decide (-128 ≤ n ∧ n ≤ 127)
  | .branchOffset, .label l =>
      decide (-128 ≤ (labelDistance a l).toInt ∧ (labelDistance a l).toInt ≤ 127)
  | .jumpTarget, .num n => decide (0 ≤ n ∧ n ≤ 4095)
  | .jumpTarget, .label l => l.extractLsb' 12 4 == (a + 1).extractLsb' 12 4
  | _, _ => false

/-- Every operand place is filled by an operand that fits it, and no operand is left over. -/
def AsmOperand.allFit (a : Word) : List OperandKind → List AsmOperand → Bool
  | [], [] => true
  | k :: ks, o :: os => o.fits a k && AsmOperand.allFit a ks os
  | [], _ :: _ => false
  | _ :: _, [] => false

/-- The check of a line at address `a`: the shape and the ranges of its operands. A number outside its
range is an error of the line and is not truncated (rule R67). -/
def AsmLine.wellFormed (a : Word) (l : AsmLine) : Bool :=
  AsmOperand.allFit a l.mnemonic.shape l.operands

end Sys2Proof
end

