-- ==== Sys2Proof/Decode.lean ====
section
/-! DEFINITION. From a word to an instruction and back: the fields (rules R52 to R55), the decoder
(rules R56 to R58, R60, R61), the encoder (rule R69) and the opcode table's masks and patterns. -/

namespace Sys2Proof

/-! ### Register numbers -/

/-- A register field is the register's number (rule R59). -/
def Reg.ofBits (b : BitVec 2) : Reg :=
  match b.toNat with
  | 0 => .r0
  | 1 => .r1
  | 2 => .r2
  | _ => .r3

/-- The register's number, as the field holds it (rule R59). -/
def Reg.toBits : Reg → BitVec 2
  | .r0 => 0
  | .r1 => 1
  | .r2 => 2
  | .r3 => 3

/-! ### Fields -/

/-- The opcode field (rule R52). -/
def opField (l : Layout) (w : Word) : BitVec 4 := w.extractLsb' l.opLo 4

/-- The function-code field (rule R52). -/
def fnField (l : Layout) (w : Word) : BitVec 6 := w.extractLsb' l.fnLo 6

/-- The register in field `rs` (rule R52). -/
def rsField (l : Layout) (w : Word) : Reg := Reg.ofBits (w.extractLsb' l.rsLo 2)

/-- The register in field `rt` (rule R52). -/
def rtField (l : Layout) (w : Word) : Reg := Reg.ofBits (w.extractLsb' l.rtLo 2)

/-- The register in field `rd` (rule R52). -/
def rdField (l : Layout) (w : Word) : Reg := Reg.ofBits (w.extractLsb' l.rdLo 2)

/-- The immediate or offset field (rule R52). -/
def immField (l : Layout) (w : Word) : BitVec 8 := w.extractLsb' l.immLo 8

/-- The jump target field (rule R52). -/
def targetField (l : Layout) (w : Word) : BitVec 12 := w.extractLsb' l.targetLo 12

/-! ### Decoding -/

/-- Why a word is no instruction (rules R60, R61). -/
inductive DecodeError where
  /-- Opcode 11, 12, 13 or 14 (rule R61). -/
  | unassignedOpcode (w : Word)
  /-- Opcode 15 with function code 8 to 24 or 32 to 63 (rule R61). -/
  | unassignedFunction (w : Word)
  /-- A field the instruction does not use is not zero: only where UNUSED_FIELDS is `mustBeZero`
  (decision D2). -/
  | nonZeroUnusedField (w : Word)
deriving DecidableEq, Repr

/-- The R format: `fn` selects the instruction (rules R53, R58). -/
def decodeR (l : Layout) (w : Word) : Except DecodeError Instr :=
  match (fnField l w).toNat with
  | 0 => .ok (.add (rdField l w) (rsField l w) (rtField l w))
  | 1 => .ok (.sub (rdField l w) (rsField l w) (rtField l w))
  | 2 => .ok (.and (rdField l w) (rsField l w) (rtField l w))
  | 3 => .ok (.orr (rdField l w) (rsField l w) (rtField l w))
  | 4 => .ok (.not (rdField l w) (rsField l w))
  | 5 => .ok (.tcp (rdField l w) (rsField l w))
  | 6 => .ok (.shl (rdField l w) (rsField l w))
  | 7 => .ok (.shr (rdField l w) (rsField l w))
  | 25 => .ok (.jpr (rsField l w))
  | 26 => .ok (.jrl (rsField l w))
  | 27 => .ok (.rwd (rdField l w))
  | 28 => .ok (.wwd (rsField l w))
  | 29 => .ok .hlt
  | 30 => .ok .eni
  | 31 => .ok .dsi
  | _ => .error (.unassignedFunction w)

/-- `op` selects the format and, for the I and the J format, the instruction (rules R56, R57). -/
def decodeFields (l : Layout) (w : Word) : Except DecodeError Instr :=
  match (opField l w).toNat with
  | 0 => .ok (.bne (rsField l w) (rtField l w) (immField l w))
  | 1 => .ok (.beq (rsField l w) (rtField l w) (immField l w))
  | 2 => .ok (.bgz (rsField l w) (immField l w))
  | 3 => .ok (.blz (rsField l w) (immField l w))
  | 4 => .ok (.adi (rtField l w) (rsField l w) (immField l w))
  | 5 => .ok (.ori (rtField l w) (rsField l w) (immField l w))
  | 6 => .ok (.lhi (rtField l w) (immField l w))
  | 7 => .ok (.lwd (rtField l w) (rsField l w) (immField l w))
  | 8 => .ok (.swd (rtField l w) (rsField l w) (immField l w))
  | 9 => .ok (.jmp (targetField l w))
  | 10 => .ok (.jal (targetField l w))
  | 15 => decodeR l w
  | _ => .error (.unassignedOpcode w)

/-- The bits of a two-bit register field. -/
def regMask (lo : Nat) : Word := 3#16 <<< lo

/-- The bits of the word that the instruction does not use (the table of rule R60). -/
def unusedMask (l : Layout) : Instr → Word
  | .not _ _ => regMask l.rtLo
  | .tcp _ _ => regMask l.rtLo
  | .shl _ _ => regMask l.rtLo
  | .shr _ _ => regMask l.rtLo
  | .rwd _ => regMask l.rsLo ||| regMask l.rtLo
  | .wwd _ => regMask l.rtLo ||| regMask l.rdLo
  | .jpr _ => regMask l.rtLo ||| regMask l.rdLo
  | .jrl _ => regMask l.rtLo ||| regMask l.rdLo
  | .hlt => regMask l.rsLo ||| regMask l.rtLo ||| regMask l.rdLo
  | .eni => regMask l.rsLo ||| regMask l.rtLo ||| regMask l.rdLo
  | .dsi => regMask l.rsLo ||| regMask l.rtLo ||| regMask l.rdLo
  | .lhi _ _ => regMask l.rsLo
  | .bgz _ _ => regMask l.rtLo
  | .blz _ _ => regMask l.rtLo
  | .add _ _ _ => 0
  | .sub _ _ _ => 0
  | .and _ _ _ => 0
  | .orr _ _ _ => 0
  | .adi _ _ _ => 0
  | .ori _ _ _ => 0
  | .lwd _ _ _ => 0
  | .swd _ _ _ => 0
  | .bne _ _ _ => 0
  | .beq _ _ _ => 0
  | .jmp _ => 0
  | .jal _ => 0

/-- Decoding under a given layout and a given treatment of unused fields (rules R56, R60, R61). -/
def decodeWith (l : Layout) (u : UnusedFields) (w : Word) : Except DecodeError Instr :=
  match decodeFields l w with
  | .error e => .error e
  | .ok i =>
      match u with
      | .ignored => .ok i
      | .mustBeZero =>
          if w &&& unusedMask l i = 0 then .ok i else .error (.nonZeroUnusedField w)

/-- The decoder of this machine: total on every word, refusing by name (rules R56, R61). -/
def decode (w : Word) : Except DecodeError Instr :=
  decodeWith Config.layout Config.unusedFields w

/-! ### Encoding -/

/-- A field's bits at their place in the word. -/
def place {n : Nat} (lo : Nat) (v : BitVec n) : Word := v.setWidth 16 <<< lo

/-- The R format, `0xF000 | rs << 10 | rt << 8 | rd << 6 | fn` (rule R69). -/
def encodeR (l : Layout) (fn : BitVec 6) (rs rt rd : Reg) : Word :=
  place l.opLo 15#4 ||| place l.rsLo rs.toBits ||| place l.rtLo rt.toBits |||
    place l.rdLo rd.toBits ||| place l.fnLo fn

/-- The I format, `op << 12 | rs << 10 | rt << 8 | imm` (rule R69). -/
def encodeI (l : Layout) (op : BitVec 4) (rs rt : Reg) (imm : BitVec 8) : Word :=
  place l.opLo op ||| place l.rsLo rs.toBits ||| place l.rtLo rt.toBits ||| place l.immLo imm

/-- The J format, `op << 12 | target` (rule R69). -/
def encodeJ (l : Layout) (op : BitVec 4) (target : BitVec 12) : Word :=
  place l.opLo op ||| place l.targetLo target

/-- Encoding under a given layout; a field an instruction does not use is zero, that is the number of
`$0` (rules R60, R64, R69). -/
def encodeWith (l : Layout) : Instr → Word
  | .add rd rs rt => encodeR l 0 rs rt rd
  | .sub rd rs rt => encodeR l 1 rs rt rd
  | .and rd rs rt => encodeR l 2 rs rt rd
  | .orr rd rs rt => encodeR l 3 rs rt rd
  | .not rd rs => encodeR l 4 rs .r0 rd
  | .tcp rd rs => encodeR l 5 rs .r0 rd
  | .shl rd rs => encodeR l 6 rs .r0 rd
  | .shr rd rs => encodeR l 7 rs .r0 rd
  | .adi rt rs imm => encodeI l 4 rs rt imm
  | .ori rt rs imm => encodeI l 5 rs rt imm
  | .lhi rt imm => encodeI l 6 .r0 rt imm
  | .rwd rd => encodeR l 27 .r0 .r0 rd
  | .wwd rs => encodeR l 28 rs .r0 .r0
  | .lwd rt rs offset => encodeI l 7 rs rt offset
  | .swd rt rs offset => encodeI l 8 rs rt offset
  | .bne rs rt offset => encodeI l 0 rs rt offset
  | .beq rs rt offset => encodeI l 1 rs rt offset
  | .bgz rs offset => encodeI l 2 rs .r0 offset
  | .blz rs offset => encodeI l 3 rs .r0 offset
  | .jmp target => encodeJ l 9 target
  | .jal target => encodeJ l 10 target
  | .jpr rs => encodeR l 25 rs .r0 .r0
  | .jrl rs => encodeR l 26 rs .r0 .r0
  | .hlt => encodeR l 29 .r0 .r0 .r0
  | .eni => encodeR l 30 .r0 .r0 .r0
  | .dsi => encodeR l 31 .r0 .r0 .r0

/-- The word of an instruction (rule R69). -/
def encode (i : Instr) : Word := encodeWith Config.layout i

/-! ### The opcode table -/

/-- The mask of the instruction's row in spec/opcode_table.json: the bits that select it. -/
def Mnemonic.tableMask : Mnemonic → Word
  | .ADD | .SUB | .AND | .ORR | .NOT | .TCP | .SHL | .SHR => 0xF03F
  | .RWD | .WWD | .JPR | .JRL | .HLT | .ENI | .DSI => 0xF03F
  | .ADI | .ORI | .LHI | .LWD | .SWD => 0xF000
  | .BNE | .BEQ | .BGZ | .BLZ | .JMP | .JAL => 0xF000

/-- The value of those bits in the row. -/
def Mnemonic.tableMatch : Mnemonic → Word
  | .ADD => 0xF000
  | .SUB => 0xF001
  | .AND => 0xF002
  | .ORR => 0xF003
  | .NOT => 0xF004
  | .TCP => 0xF005
  | .SHL => 0xF006
  | .SHR => 0xF007
  | .ADI => 0x4000
  | .ORI => 0x5000
  | .LHI => 0x6000
  | .RWD => 0xF01B
  | .WWD => 0xF01C
  | .LWD => 0x7000
  | .SWD => 0x8000
  | .BNE => 0x0000
  | .BEQ => 0x1000
  | .BGZ => 0x2000
  | .BLZ => 0x3000
  | .JMP => 0x9000
  | .JAL => 0xA000
  | .JPR => 0xF019
  | .JRL => 0xF01A
  | .HLT => 0xF01D
  | .ENI => 0xF01E
  | .DSI => 0xF01F

/-- The 16-bit word whose bits are those of `w` below bit `nbits`, and 0 above: every instruction is
one word (rule R51), so there is no later word. -/
def tableWord (nbits w : Nat) : Word := BitVec.ofNat 16 (w % 2 ^ nbits)

/-- The instruction the decoder reads from an instruction whose bits are `w`. -/
def decodeTableWord (nbits w : Nat) : Option Instr :=
  match decode (tableWord nbits w) with
  | .ok i => some i
  | .error _ => none

end Sys2Proof
end

