-- ==== Sys2Proof/Machine/Fetch.lean ====
section
/-! DEFINITION. Fetching and decoding the word at the pc, loading a program from outside, and the state
in which the next step runs a given word. -/

namespace Sys2Proof.Machine

/-- `w <- MemRead(pc, 1); insn <- decode(w)` (rules R47, R56, R61, R192). Fetch and data accesses read
the same memory (rules R32, R45). -/
def fetchInstr (s : State) : Except Fault Instr :=
  match memRead Config.memWords s.pc s.mem with
  | .error f => .error f
  | .ok w =>
      match decode w with
      | .error _ => .error (.illegalInstruction w)
      | .ok i => .ok i

/-- The host places words in memory from an address on, before the first fetch (rule R191). -/
def State.load (s : State) (start : Word) : List Word → State
  | [] => s
  | w :: ws => State.load { s with mem := s.mem.insert start.toNat w } (start + 1) ws

/-- Reset with the image the host loaded: the only way out of the halted state (rules R24, R161,
R190). -/
def State.resetWith (image : Memory) : State := { State.reset with mem := image }

/-- The state with `w` at the pc and nothing that would keep the next step from fetching it: not halted,
no port instruction waiting, no interrupt taken. -/
def State.readyToRun (s : State) (w : Word) : State :=
  { s with
    mem := s.mem.insert s.pc.toNat w
    halted := false
    portWait := .idle
    irqEvents := if s.interruptTaken then false :: s.irqEvents.tail else s.irqEvents }

end Sys2Proof.Machine
end

