-- ==== Sys2Proof/Machine/Step.lean ====
section
/-! DEFINITION. The step cycle (rule R192). -/

namespace Sys2Proof.Machine

/-- One instruction, or one step of the wait of a port instruction: while an RWD or WWD waits the
machine does not fetch (rule R47). -/
def cycle (s : State) : Host.Outcome State Fault Refusal :=
  match s.portWait with
  | .input rd => pollInput rd s
  | .output => pollOutput s
  | .idle =>
      match fetchInstr s with
      | .error f => .fault f
      | .ok i => exec i s

/-- One step (rule R192). A halted machine executes no instruction and changes no state (rule R19): its
step answers the same state, which is final. Otherwise an enabled interrupt is taken before the next
fetch (rule R177), and if there is none the cycle runs. -/
def step (s : State) : Host.Outcome State Fault Refusal :=
  if s.halted then .next s
  else if s.interruptTaken then takeInterrupt interruptEntry s.sampleIrq
  else cycle s.sampleIrq

/-- `s` with the word whose bits are `w` stored where the next step fetches, so that the next step runs
it. -/
def State.withFetchWord (s : State) (nbits w : Nat) : State := s.readyToRun (tableWord nbits w)

end Sys2Proof.Machine
end

