-- ==== Sys2Proof/Machine/Assembler.lean ====
section
/-! DEFINITION. The assembler syntax (rules R63 to R69): a line of text to an assembler line, an
assembler line to an instruction, and an instruction back to its line. The machine does not use it. -/

namespace Sys2Proof.Machine

/-! ### From a line to an instruction (rules R64 to R67) -/

/-- The register of a number 0 to 3. -/
def regOfNumber (n : Nat) : Reg := Reg.ofBits (BitVec.ofNat 2 n)

/-- The number of a register. -/
def regNumber (r : Reg) : Nat := r.toBits.toNat

/-- A number or a branch label in the 8-bit field, two's complement (rules R65, R67). -/
def operandImm (a : Word) : AsmOperand → BitVec 8
  | .reg _ => 0
  | .num n => BitVec.ofInt 8 n
  | .label l => (labelDistance a l).setWidth 8

/-- A number or a jump label in the 12-bit field (rule R66). -/
def operandTarget : AsmOperand → BitVec 12
  | .reg _ => 0
  | .num n => BitVec.ofInt 12 n
  | .label l => l.setWidth 12

/-- The instruction of a line whose operands have the right shape (rule R64). -/
def buildInstr (a : Word) (l : AsmLine) : Option Instr :=
  match l.mnemonic, l.operands with
  | .ADD, [.reg d, .reg s, .reg t] => some (.add (regOfNumber d) (regOfNumber s) (regOfNumber t))
  | .SUB, [.reg d, .reg s, .reg t] => some (.sub (regOfNumber d) (regOfNumber s) (regOfNumber t))
  | .AND, [.reg d, .reg s, .reg t] => some (.and (regOfNumber d) (regOfNumber s) (regOfNumber t))
  | .ORR, [.reg d, .reg s, .reg t] => some (.orr (regOfNumber d) (regOfNumber s) (regOfNumber t))
  | .NOT, [.reg d, .reg s] => some (.not (regOfNumber d) (regOfNumber s))
  | .TCP, [.reg d, .reg s] => some (.tcp (regOfNumber d) (regOfNumber s))
  | .SHL, [.reg d, .reg s] => some (.shl (regOfNumber d) (regOfNumber s))
  | .SHR, [.reg d, .reg s] => some (.shr (regOfNumber d) (regOfNumber s))
  | .ADI, [.reg t, .reg s, o] => some (.adi (regOfNumber t) (regOfNumber s) (operandImm a o))
  | .ORI, [.reg t, .reg s, o] => some (.ori (regOfNumber t) (regOfNumber s) (operandImm a o))
  | .LHI, [.reg t, o] => some (.lhi (regOfNumber t) (operandImm a o))
  | .RWD, [.reg d] => some (.rwd (regOfNumber d))
  | .WWD, [.reg s] => some (.wwd (regOfNumber s))
  | .LWD, [.reg t, .reg s, o] => some (.lwd (regOfNumber t) (regOfNumber s) (operandImm a o))
  | .SWD, [.reg t, .reg s, o] => some (.swd (regOfNumber t) (regOfNumber s) (operandImm a o))
  | .BNE, [.reg s, .reg t, o] => some (.bne (regOfNumber s) (regOfNumber t) (operandImm a o))
  | .BEQ, [.reg s, .reg t, o] => some (.beq (regOfNumber s) (regOfNumber t) (operandImm a o))
  | .BGZ, [.reg s, o] => some (.bgz (regOfNumber s) (operandImm a o))
  | .BLZ, [.reg s, o] => some (.blz (regOfNumber s) (operandImm a o))
  | .JMP, [o] => some (.jmp (operandTarget o))
  | .JAL, [o] => some (.jal (operandTarget o))
  | .JPR, [.reg s] => some (.jpr (regOfNumber s))
  | .JRL, [.reg s] => some (.jrl (regOfNumber s))
  | .HLT, [] => some .hlt
  | .ENI, [] => some .eni
  | .DSI, [] => some .dsi
  | _, _ => none

/-- The instruction of a line at address `a`; an ill-formed line has none (rules R66, R67). -/
def assemble (a : Word) (l : AsmLine) : Option Instr :=
  if l.wellFormed a then buildInstr a l else none

/-! ### From an instruction to its line (rule R64) -/

def asmReg (r : Reg) : AsmOperand := .reg (regNumber r)

def asmSigned (v : BitVec 8) : AsmOperand := .num v.toInt

def asmUnsigned (v : BitVec 8) : AsmOperand := .num v.toNat

def asmTarget (v : BitVec 12) : AsmOperand := .num v.toNat

/-- The operands of an instruction's line, numbers for offsets and targets. -/
def asmOperands : Instr → List AsmOperand
  | .add rd rs rt => [asmReg rd, asmReg rs, asmReg rt]
  | .sub rd rs rt => [asmReg rd, asmReg rs, asmReg rt]
  | .and rd rs rt => [asmReg rd, asmReg rs, asmReg rt]
  | .orr rd rs rt => [asmReg rd, asmReg rs, asmReg rt]
  | .not rd rs => [asmReg rd, asmReg rs]
  | .tcp rd rs => [asmReg rd, asmReg rs]
  | .shl rd rs => [asmReg rd, asmReg rs]
  | .shr rd rs => [asmReg rd, asmReg rs]
  | .adi rt rs imm => [asmReg rt, asmReg rs, asmSigned imm]
  | .ori rt rs imm => [asmReg rt, asmReg rs, asmUnsigned imm]
  | .lhi rt imm => [asmReg rt, asmUnsigned imm]
  | .rwd rd => [asmReg rd]
  | .wwd rs => [asmReg rs]
  | .lwd rt rs offset => [asmReg rt, asmReg rs, asmSigned offset]
  | .swd rt rs offset => [asmReg rt, asmReg rs, asmSigned offset]
  | .bne rs rt offset => [asmReg rs, asmReg rt, asmSigned offset]
  | .beq rs rt offset => [asmReg rs, asmReg rt, asmSigned offset]
  | .bgz rs offset => [asmReg rs, asmSigned offset]
  | .blz rs offset => [asmReg rs, asmSigned offset]
  | .jmp target => [asmTarget target]
  | .jal target => [asmTarget target]
  | .jpr rs => [asmReg rs]
  | .jrl rs => [asmReg rs]
  | .hlt => []
  | .eni => []
  | .dsi => []

/-- The assembler line of an instruction. -/
def disassemble (i : Instr) : AsmLine := ⟨i.mnemonic, asmOperands i⟩

/-! ### From text to a line (rule R63) -/

/-- The mnemonics in capital letters. -/
def mnemonicNames : List (List Char × Mnemonic) :=
  [ ("ADD".toList, .ADD), ("SUB".toList, .SUB), ("AND".toList, .AND), ("ORR".toList, .ORR),
    ("NOT".toList, .NOT), ("TCP".toList, .TCP), ("SHL".toList, .SHL), ("SHR".toList, .SHR),
    ("ADI".toList, .ADI), ("ORI".toList, .ORI), ("LHI".toList, .LHI), ("RWD".toList, .RWD),
    ("WWD".toList, .WWD), ("LWD".toList, .LWD), ("SWD".toList, .SWD), ("BNE".toList, .BNE),
    ("BEQ".toList, .BEQ), ("BGZ".toList, .BGZ), ("BLZ".toList, .BLZ), ("JMP".toList, .JMP),
    ("JAL".toList, .JAL), ("JPR".toList, .JPR), ("JRL".toList, .JRL), ("HLT".toList, .HLT),
    ("ENI".toList, .ENI), ("DSI".toList, .DSI) ]

/-- The value beside a key. -/
def findName {α : Type} (name : List Char) : List (List Char × α) → Option α
  | [] => none
  | (k, v) :: rest => if k = name then some v else findName name rest

/-- A digit's value in base 10 or 16, hexadecimal letters in either case. -/
def digitValue (c : Char) : Option Nat :=
  if '0' ≤ c ∧ c ≤ '9' then some (c.toNat - '0'.toNat)
  else if 'a' ≤ c ∧ c ≤ 'f' then some (c.toNat - 'a'.toNat + 10)
  else if 'A' ≤ c ∧ c ≤ 'F' then some (c.toNat - 'A'.toNat + 10)
  else none

/-- A row of digits, most significant first, after the value read so far. -/
def digitsValue (base : Nat) : Nat → List Char → Option Nat
  | n, [] => some n
  | n, c :: cs =>
      match digitValue c with
      | none => none
      | some d => if d < base then digitsValue base (base * n + d) cs else none

/-- A number: hexadecimal after `0x`, else decimal with an optional minus sign (rule R63). Which numerals
are accepted beyond those shown is DESIGN CHOICE (assumption 27): leading zeros are, a sign before `0x`
is not. -/
def parseNumber (cs : List Char) : Option Int :=
  match cs with
  | '0' :: 'x' :: c :: ds => (digitsValue 16 0 (c :: ds)).map Int.ofNat
  | '-' :: c :: ds => (digitsValue 10 0 (c :: ds)).map fun n => -Int.ofNat n
  | c :: ds => (digitsValue 10 0 (c :: ds)).map Int.ofNat
  | [] => none

/-- An operand: a register after a dollar sign, a number, or a label of the given table (rule R63). The
rule shows the registers as `$0` to `$3` and the accepted numerals are open (N17): that any row of decimal
digits stands for its number, so that `$03` is `$3`, is DESIGN CHOICE (assumption 27). -/
def parseOperand (labels : List (List Char × Word)) (cs : List Char) : Option AsmOperand :=
  match cs with
  | '$' :: c :: ds => (digitsValue 10 0 (c :: ds)).map AsmOperand.reg
  | _ =>
      match parseNumber cs with
      | some n => some (.num n)
      | none => (findName cs labels).map AsmOperand.label

/-- The pieces of a text between separators; one piece where there is none. -/
def splitPieces (sep : Char) : List Char → List (List Char)
  | [] => [[]]
  | c :: cs =>
      if c = sep then [] :: splitPieces sep cs
      else
        match splitPieces sep cs with
        | [] => [[c]]
        | p :: ps => (c :: p) :: ps

/-- The text without spaces at either end. -/
def trimSpaces (cs : List Char) : List Char :=
  ((cs.dropWhile (· == ' ')).reverse.dropWhile (· == ' ')).reverse

/-- All operands of a line, or none if one of them cannot be read. -/
def parseOperands (labels : List (List Char × Word)) : List (List Char) → Option (List AsmOperand)
  | [] => some []
  | p :: ps =>
      match parseOperand labels (trimSpaces p), parseOperands labels ps with
      | some o, some os => some (o :: os)
      | _, _ => none

/-- A line of text taken apart: the label it defines, if any, and its instruction. -/
structure SourceLine where
  label : Option (List Char)
  /-- Empty where the line holds no instruction. -/
  code : List Char
deriving DecidableEq, Repr

/-- A line of text: `NAME:` before the instruction defines a label (rule R63, decision D23); a semicolon
ends the instruction and a comment follows (rule R63). More than one label before an instruction is open
(N17): the line is split at its first colon, so that `A: B: HLT` is an error, a DESIGN CHOICE (assumption
27); two labels for one address stand on two lines. -/
def splitSource (text : List Char) : SourceLine :=
  let body := trimSpaces (text.takeWhile (· != ';'))
  match body.dropWhile (· != ':') with
  | [] => ⟨none, body⟩
  | _ :: rest => ⟨some (trimSpaces (body.takeWhile (· != ':'))), trimSpaces rest⟩

/-- The instruction of a line of text: a mnemonic, then its operands separated by commas (rule R63). A
label that the line defines is no part of it. -/
def parseLine (labels : List (List Char × Word)) (text : List Char) : Option AsmLine :=
  let code := (splitSource text).code
  let rest := trimSpaces (code.dropWhile (· != ' '))
  match findName (code.takeWhile (· != ' ')) mnemonicNames,
      (if rest = [] then some [] else parseOperands labels (splitPieces ',' rest)) with
  | some m, some os => some ⟨m, os⟩
  | _, _ => none

/-- The word of a line of text at address `a`, if the line assembles (rules R63 to R69). -/
def assembleText (labels : List (List Char × Word)) (a : Word) (text : List Char) : Option Word :=
  match parseLine labels text with
  | none => none
  | some l => (assemble a l).map encode

/-! ### From a program's text to its words (rule R63, decision D23) -/

/-- The address of the line after `text` at address `a`: an instruction is one word (rule R51), and a line
without one takes none. -/
def addressAfter (a : Word) (text : List Char) : Word :=
  if (splitSource text).code = [] then a else a + 1

/-- The labels of a program whose first line is at address `a`: each stands for the address of the
instruction it is written before (rules R63, R65, decision D23). -/
def collectLabels (a : Word) : List (List Char) → List (List Char × Word)
  | [] => []
  | text :: rest =>
      match (splitSource text).label with
      | some name => (name, a) :: collectLabels (addressAfter a text) rest
      | none => collectLabels (addressAfter a text) rest

/-- A label's name: a letter, then letters and digits, as every label of rule R63 is. What else a name
may be is open (N17): DESIGN CHOICE (assumption 27). -/
def labelNameOk : List Char → Bool
  | [] => false
  | c :: cs => c.isAlpha && cs.all Char.isAlphanum

/-- The words of a program's lines from address `a`, under a table of labels; none if a line is in
error. -/
def assembleLines (labels : List (List Char × Word)) (a : Word) : List (List Char) → Option (List Word)
  | [] => some []
  | text :: rest =>
      if (splitSource text).code = [] then assembleLines labels a rest
      else
        match assembleText labels a text, assembleLines labels (a + 1) rest with
        | some w, some ws => some (w :: ws)
        | _, _ => none

/-- The words of a program's text from address `start`, one instruction a line (rule R63, decision D23).
All labels are collected first, so that a line may name one that a later line defines. A name that is none,
or that two lines define, is an error: DESIGN CHOICE (assumption 27). -/
def assembleProgram (start : Word) (text : List Char) : Option (List Word) :=
  let lines := splitPieces '\n' text
  let labels := collectLabels start lines
  if (labels.all fun e => labelNameOk e.1) ∧ (labels.map Prod.fst).Nodup then
    assembleLines labels start lines
  else none

end Sys2Proof.Machine
end

