-- ==== Sys2Proof/Safety.lean ====
section
/-! DEFINITION. The terms in which claims speak: the registers an instruction reads and writes, what a
frame is, an ended run, a safe run, and the invariant of the machine. -/

namespace Sys2Proof.Machine

/-! ### Register use (the table of rule R13) -/

/-- The general registers an instruction reads. -/
def readRegs : Instr → List Reg
  | .add _ rs rt => [rs, rt]
  | .sub _ rs rt => [rs, rt]
  | .and _ rs rt => [rs, rt]
  | .orr _ rs rt => [rs, rt]
  | .not _ rs => [rs]
  | .tcp _ rs => [rs]
  | .shl _ rs => [rs]
  | .shr _ rs => [rs]
  | .adi _ rs _ => [rs]
  | .ori _ rs _ => [rs]
  | .lhi _ _ => []
  | .rwd _ => []
  | .wwd rs => [rs]
  | .lwd _ rs _ => [rs]
  | .swd rt rs _ => [rs, rt]
  | .bne rs rt _ => [rs, rt]
  | .beq rs rt _ => [rs, rt]
  | .bgz rs _ => [rs]
  | .blz rs _ => [rs]
  | .jmp _ => []
  | .jal _ => []
  | .jpr rs => [rs]
  | .jrl rs => [rs]
  | .hlt => []
  | .eni => []
  | .dsi => []

/-- The general registers an instruction writes. -/
def writtenRegs : Instr → List Reg
  | .add rd _ _ => [rd]
  | .sub rd _ _ => [rd]
  | .and rd _ _ => [rd]
  | .orr rd _ _ => [rd]
  | .not rd _ => [rd]
  | .tcp rd _ => [rd]
  | .shl rd _ => [rd]
  | .shr rd _ => [rd]
  | .adi rt _ _ => [rt]
  | .ori rt _ _ => [rt]
  | .lhi rt _ => [rt]
  | .rwd rd => [rd]
  | .wwd _ => []
  | .lwd rt _ _ => [rt]
  | .swd _ _ _ => []
  | .bne _ _ _ => []
  | .beq _ _ _ => []
  | .bgz _ _ => []
  | .blz _ _ => []
  | .jmp _ => []
  | .jal _ => [.r2]
  | .jpr _ => []
  | .jrl _ => [.r2]
  | .hlt => []
  | .eni => []
  | .dsi => []

/-! ### Frames -/

/-- All the state but registers, pc and memory is the same. -/
def sameRest (s t : State) : Prop :=
  t.ie = s.ie ∧ t.halted = s.halted ∧ t.portWait = s.portWait ∧ t.outPort = s.outPort ∧
    t.outSignal = s.outSignal ∧ t.out = s.out ∧ t.inEvents = s.inEvents ∧
    t.ackEvents = s.ackEvents ∧ t.irqEvents = s.irqEvents

/-- Every word of memory reads as before. -/
def sameMemory (s t : State) : Prop := ∀ a, t.word a = s.word a

/-- Every register but `r` is the same. -/
def sameRegsBut (r : Reg) (s t : State) : Prop := ∀ q, q ≠ r → t.reg q = s.reg q

/-- Every register is the same. -/
def sameRegs (s t : State) : Prop := ∀ q, t.reg q = s.reg q

/-- The pc is that of the next instruction in memory, modulo 65536 (rules R15, R16). -/
def atNext (s t : State) : Prop := t.pc.toNat = (s.pc.toNat + 1) % 65536

/-- The frame of an instruction with a register result: one register and the pc (rules R100, R110). -/
def onlyResult (rd : Reg) (s t : State) : Prop :=
  sameRegsBut rd s t ∧ atNext s t ∧ sameMemory s t ∧ sameRest s t

/-- The frame of an instruction that changes the pc alone (rule R140). -/
def onlyPc (s t : State) : Prop := sameRegs s t ∧ sameMemory s t ∧ sameRest s t

/-! ### The input port as the environment drives it (rules R10, R120) -/

/-- The words the input device will deliver, in order (rule R126). -/
def State.inWords (s : State) : List Word := s.inEvents.filterMap id

/-- The input signal together with its word, if the device signals at this step (rule R124). -/
def State.inputOffered (s : State) : Option Word := (s.inEvents.headD none)

/-! ### Runs -/

/-- The end of a run: HLT has been executed (rule R193). A run that stops, or waits, has not ended. -/
def State.ended (s : State) : Prop := s.halted = true

/-- A state that steps reach from another. -/
inductive Reaches (s : State) : State → Prop where
  | refl : Reaches s s
  | tail {t u : State} : Reaches s t → step t = .next u → Reaches s u

/-- No state a run comes to is one where the step stops. -/
def SafeRun (s : State) : Prop := ∀ t, Reaches s t → ∃ u, step t = .next u

/-! ### The invariant -/

/-- What every step keeps. -/
structure MachineInv (s : State) : Prop where
  /-- Memory is in its canonical form. -/
  memory : s.mem.wf
  /-- A halted machine has no port instruction waiting (rule R193). -/
  haltedIdle : s.halted = true → s.portWait = .idle
  /-- While an RWD waits, the pc still holds its address (rule R122). -/
  inputAtRwd : ∀ rd, s.portWait = .input rd → fetchInstr s = .ok (.rwd rd)
  /-- While a WWD waits, the pc still holds its address (rule R123). -/
  outputAtWwd : s.portWait = .output → ∃ rs, fetchInstr s = .ok (.wwd rs)
  /-- While a WWD waits, the output signal is asserted and the port holds the last word of the trace
  (rules R121, R125). -/
  outputDriven : s.portWait = .output → s.outSignal = true ∧ s.outPort = s.out.getLast? ∧ s.out ≠ []

end Sys2Proof.Machine
end

