-- ==== Sys2Proof/Certificates/Slice0/Obligations.lean ====
section
/-! DEFINITION. The statements about this machine. Each says in its docstring which rule it formalises and
which of its clauses are the spec's decision or the model's choice. -/

open Sys2Proof Sys2Proof.Machine

/-! ### Reset and the invariant -/

/-- Reset: rules R24 and R190. Decisions D9 and D10 of the spec. The register values are left out: they are
the model's choice (assumption 10). -/
def Obligations.ResetLeaves : Prop :=
  State.reset.pc = 0x0000 ∧ State.reset.ie = false ∧ State.reset.halted = false ∧
    State.reset.portWait = .idle ∧ State.reset.outPort = none ∧ State.reset.outSignal = false ∧
    State.reset.out = [] ∧ (∀ a, State.reset.word a = none) ∧
    ∀ image a, (State.resetWith image).word a = Memory.lookup image a.toNat

/-- The invariant holds at reset, and at reset with any image in canonical form. -/
def Obligations.ResetInvariant : Prop :=
  MachineInv State.reset ∧ ∀ image : Memory, image.wf → MachineInv (State.resetWith image)

/-- Every step keeps the invariant: memory stays canonical, a halted machine has no port instruction
waiting (rule R193), and while a port instruction waits the pc still holds its address (rules R122, R123)
and, for a WWD, the output signal is asserted with the trace's last word on the port (rules R121, R125). -/
def Obligations.StepKeepsInvariant : Prop :=
  ∀ s t, MachineInv s → step s = .next t → MachineInv t

/-- The invariant holds in every state that steps reach from a state in which it holds. -/
def Obligations.ReachedKeepsInvariant : Prop :=
  ∀ s t, MachineInv s → Reaches s t → MachineInv t

/-! ### Encoding (the field order is the spec's from general knowledge, decision D1, assumption 1) -/

/-- Decode and encode agree, for every instruction and every operand value (rules R56, R69). -/
def Obligations.DecodeEncode : Prop := ∀ i, decode (encode i) = .ok i

/-- Encode and decode agree the other way: the word of the decoded instruction is the word read, with the
bits the instruction does not use at zero (rules R60, R69). -/
def Obligations.EncodeDecode : Prop :=
  ∀ w i, decode w = .ok i → encode i = w &&& ~~~unusedMask Config.layout i

/-- A word decodes to an instruction of a mnemonic exactly when it has that row's pattern under that row's
mask (rules R56, R57, R58): the opcode table and the decoder agree, and no two rows overlap. -/
def Obligations.DecodeFollowsTable : Prop :=
  ∀ w m, w &&& m.tableMask = m.tableMatch ↔ ∃ i, decode w = .ok i ∧ i.mnemonic = m

/-- The words that are no instruction (rule R61): opcode 11 to 14, or opcode 15 with function code 8 to 24
or 32 to 63. -/
def Obligations.IllegalWords : Prop :=
  ∀ w : Word, (∃ e, decode w = .error e) ↔
    (11 ≤ w.toNat / 4096 ∧ w.toNat / 4096 ≤ 14) ∨
      (w.toNat / 4096 = 15 ∧ ((8 ≤ w.toNat % 64 ∧ w.toNat % 64 ≤ 24) ∨ 32 ≤ w.toNat % 64))

/-- The fields an instruction does not use take no part in decoding (rule R60, decision D2). -/
def Obligations.UnusedFieldsIgnored : Prop :=
  ∀ w w' i, decode w = .ok i →
    w &&& ~~~unusedMask Config.layout i = w' &&& ~~~unusedMask Config.layout i → decode w' = .ok i

/-- With UNUSED_FIELDS at its other value the decoder accepts the canonical words alone (rule R60, decision
D2). -/
def Obligations.MustBeZeroIsCanonical : Prop :=
  ∀ w i, decodeWith Config.layout .mustBeZero w = .ok i ↔ encode i = w

/-- Words written out from the spec's encodings decode to the instructions they stand for (section 2.9 of
95_test_vectors.md). -/
def Obligations.SampleWordsDecode : Prop :=
  decode 0b1111_10_00_01_000000 = .ok (.add .r1 .r2 .r0) ∧
  decode 0b1111_01_10_11_000010 = .ok (.and .r3 .r1 .r2) ∧
  decode 0b1111_00_00_10_011011 = .ok (.rwd .r2) ∧
  decode 0b1111_11_00_00_011010 = .ok (.jrl .r3) ∧
  decode 0b0100_01_00_11101111 = .ok (.adi .r0 .r1 0xEF) ∧
  decode 0b1000_11_01_11111110 = .ok (.swd .r1 .r3 0xFE) ∧
  decode 0b0001_10_00_11011100 = .ok (.beq .r2 .r0 0xDC) ∧
  decode 0b1010_010110110000 = .ok (.jal 0x5B0)

/-! ### The assembler (rules R63 to R67) -/

/-- Every instruction's line assembles to it, at any address (rules R64, R67). -/
def Obligations.AssembleDisassemble : Prop := ∀ a i, assemble a (disassemble i) = some i

/-- A label in reach in a branch's offset field becomes the offset whose target is the label, and a label
out of reach is an error (rule R65; that distances count modulo 65536 is assumption 23). -/
def Obligations.BranchLabelReached : Prop :=
  ∀ (a l : Word) (rs rt : Reg),
    (-128 ≤ (l - (a + 1)).toInt ∧ (l - (a + 1)).toInt ≤ 127 →
      ∃ offset, branchTarget (a + 1) offset = l ∧
        assemble a ⟨.BNE, [asmReg rs, asmReg rt, .label l]⟩ = some (.bne rs rt offset) ∧
        assemble a ⟨.BEQ, [asmReg rs, asmReg rt, .label l]⟩ = some (.beq rs rt offset) ∧
        assemble a ⟨.BGZ, [asmReg rs, .label l]⟩ = some (.bgz rs offset) ∧
        assemble a ⟨.BLZ, [asmReg rs, .label l]⟩ = some (.blz rs offset)) ∧
    ((l - (a + 1)).toInt < -128 ∨ 127 < (l - (a + 1)).toInt →
      assemble a ⟨.BNE, [asmReg rs, asmReg rt, .label l]⟩ = none ∧
      assemble a ⟨.BEQ, [asmReg rs, asmReg rt, .label l]⟩ = none ∧
      assemble a ⟨.BGZ, [asmReg rs, .label l]⟩ = none ∧
      assemble a ⟨.BLZ, [asmReg rs, .label l]⟩ = none)

/-- A label in the region of the next instruction becomes the target whose address is the label, and a
label outside it is an error (rule R66; the region is decision D12). -/
def Obligations.JumpLabelReached : Prop :=
  ∀ (a l : Word),
    (l.extractLsb' 12 4 = (a + 1).extractLsb' 12 4 →
      ∃ target, jumpTarget .next a target = l ∧
        assemble a ⟨.JMP, [.label l]⟩ = some (.jmp target) ∧
        assemble a ⟨.JAL, [.label l]⟩ = some (.jal target)) ∧
    (l.extractLsb' 12 4 ≠ (a + 1).extractLsb' 12 4 →
      assemble a ⟨.JMP, [.label l]⟩ = none ∧ assemble a ⟨.JAL, [.label l]⟩ = none)

/-- A number outside its range is an error of the line and is not truncated (rules R66, R67, decision
D23). -/
def Obligations.OutOfRangeRefused : Prop :=
  ∀ (a : Word) (rs rt : Reg) (n : Int),
    (n < -128 ∨ 127 < n →
      assemble a ⟨.ADI, [asmReg rt, asmReg rs, .num n]⟩ = none ∧
      assemble a ⟨.LWD, [asmReg rt, asmReg rs, .num n]⟩ = none ∧
      assemble a ⟨.SWD, [asmReg rt, asmReg rs, .num n]⟩ = none ∧
      assemble a ⟨.BNE, [asmReg rs, asmReg rt, .num n]⟩ = none ∧
      assemble a ⟨.BEQ, [asmReg rs, asmReg rt, .num n]⟩ = none ∧
      assemble a ⟨.BGZ, [asmReg rs, .num n]⟩ = none ∧
      assemble a ⟨.BLZ, [asmReg rs, .num n]⟩ = none) ∧
    (n < 0 ∨ 255 < n →
      assemble a ⟨.ORI, [asmReg rt, asmReg rs, .num n]⟩ = none ∧
      assemble a ⟨.LHI, [asmReg rt, .num n]⟩ = none) ∧
    (n < 0 ∨ 4095 < n →
      assemble a ⟨.JMP, [.num n]⟩ = none ∧ assemble a ⟨.JAL, [.num n]⟩ = none)

/-! ### Register arithmetic and logic (rules R100 to R109) -/

/-- ADD (rules R100, R101; the wrap of the sum is decision D11, of the pc D8). -/
def Obligations.AddResult : Prop :=
  ∀ rd rs rt s, ∃ t, exec (.add rd rs rt) s = .next t ∧
    (t.reg rd).toNat = ((s.reg rs).toNat + (s.reg rt).toNat) % 65536 ∧ onlyResult rd s t

/-- SUB: `rs` minus `rt` (rules R100, R102). -/
def Obligations.SubResult : Prop :=
  ∀ rd rs rt s, ∃ t, exec (.sub rd rs rt) s = .next t ∧
    ((t.reg rd).toNat : Int) = ((s.reg rs).toNat - (s.reg rt).toNat : Int) % 65536 ∧ onlyResult rd s t

/-- AND and ORR, bit by bit (rules R100, R103, R104; conflict C2: ORR is OR). -/
def Obligations.AndOrrResult : Prop :=
  ∀ rd rs rt s,
    (∃ t, exec (.and rd rs rt) s = .next t ∧
      (∀ k : Fin 16, (t.reg rd)[k] = ((s.reg rs)[k] && (s.reg rt)[k])) ∧ onlyResult rd s t) ∧
    (∃ t, exec (.orr rd rs rt) s = .next t ∧
      (∀ k : Fin 16, (t.reg rd)[k] = ((s.reg rs)[k] || (s.reg rt)[k])) ∧ onlyResult rd s t)

/-- NOT and TCP: 0xFFFF minus the register, and zero minus the register modulo 65536 (rules R100, R105,
R106). -/
def Obligations.NotTcpResult : Prop :=
  ∀ rd rs s,
    (∃ t, exec (.not rd rs) s = .next t ∧
      (t.reg rd).toNat = 65535 - (s.reg rs).toNat ∧ onlyResult rd s t) ∧
    (∃ t, exec (.tcp rd rs) s = .next t ∧
      (t.reg rd).toNat = (65536 - (s.reg rs).toNat) % 65536 ∧ onlyResult rd s t)

/-- SHL: twice the register, modulo 65536 (rules R100, R107). -/
def Obligations.ShlResult : Prop :=
  ∀ rd rs s, ∃ t, exec (.shl rd rs) s = .next t ∧
    (t.reg rd).toNat = (2 * (s.reg rs).toNat) % 65536 ∧ onlyResult rd s t

/-- SHR: the signed reading halved, rounded toward minus infinity (rules R100, R108). -/
def Obligations.ShrResult : Prop :=
  ∀ rd rs s, ∃ t, exec (.shr rd rs) s = .next t ∧
    (t.reg rd).toInt = (s.reg rs).toInt / 2 ∧ onlyResult rd s t

/-! ### Immediate arithmetic and logic (rules R110 to R113) -/

/-- ADI: the immediate counts as a signed number (rules R110, R111). -/
def Obligations.AdiResult : Prop :=
  ∀ rt rs imm s, ∃ t, exec (.adi rt rs imm) s = .next t ∧
    ((t.reg rt).toNat : Int) = ((s.reg rs).toNat + imm.toInt) % 65536 ∧ onlyResult rt s t

/-- ORI: the immediate is zero-extended, so bits 15 to 8 are those of the register (rules R110, R112). -/
def Obligations.OriResult : Prop :=
  ∀ rt rs (imm : BitVec 8) s, ∃ t, exec (.ori rt rs imm) s = .next t ∧
    (∀ k : Fin 16, (t.reg rt)[k] = ((s.reg rs)[k] || imm.getLsbD k)) ∧ onlyResult rt s t

/-- LHI: the immediate times 256; no register is read (rules R110, R113). -/
def Obligations.LhiResult : Prop :=
  ∀ rt imm s, ∃ t, exec (.lhi rt imm) s = .next t ∧
    (t.reg rt).toNat = imm.toNat * 256 ∧ onlyResult rt s t

/-! ### Ports (rules R120 to R127) -/

/-- RWD completes when the device signals: the word is in the register, and consumed (rules R122, R124). -/
def Obligations.RwdCompletes : Prop :=
  ∀ rd s v es, s.inEvents = some v :: es →
    ∃ t, exec (.rwd rd) s = .next t ∧ t.reg rd = v ∧ sameRegsBut rd s t ∧ atNext s t ∧
      sameMemory s t ∧ t.inEvents = es ∧ t.portWait = .idle ∧ t.ie = s.ie ∧ t.halted = s.halted ∧
      t.outPort = s.outPort ∧ t.outSignal = s.outSignal ∧ t.out = s.out ∧
      t.ackEvents = s.ackEvents ∧ t.irqEvents = s.irqEvents

/-- RWD waits while the device does not signal: register and pc keep their values (rules R122, R124). -/
def Obligations.RwdWaits : Prop :=
  ∀ rd s, s.inputOffered = none →
    ∃ t, exec (.rwd rd) s = .next t ∧ t.portWait = .input rd ∧ sameRegs s t ∧ t.pc = s.pc ∧
      sameMemory s t ∧ t.inEvents = s.inEvents.tail ∧ t.ie = s.ie ∧ t.halted = s.halted ∧
      t.outPort = s.outPort ∧ t.outSignal = s.outSignal ∧ t.out = s.out ∧
      t.ackEvents = s.ackEvents ∧ t.irqEvents = s.irqEvents

/-- WWD completes with the acknowledge: the trace gains the word and the pc advances (rules R123, R125).
What the port and its signal show afterwards is open (assumption 16) and not stated. -/
def Obligations.WwdCompletes : Prop :=
  ∀ rs s es, s.ackEvents = true :: es →
    ∃ t, exec (.wwd rs) s = .next t ∧ t.out = s.out ++ [s.reg rs] ∧ sameRegs s t ∧ atNext s t ∧
      sameMemory s t ∧ t.portWait = .idle ∧ t.ackEvents = es ∧ t.ie = s.ie ∧ t.halted = s.halted ∧
      t.inEvents = s.inEvents ∧ t.irqEvents = s.irqEvents

/-- WWD without the acknowledge: the word is on the port, the output signal asserted and the trace longer
at once, and the pc keeps its value (rules R123, R125). -/
def Obligations.WwdWaits : Prop :=
  ∀ rs s, s.ackEvents.headD false = false →
    ∃ t, exec (.wwd rs) s = .next t ∧ t.outPort = some (s.reg rs) ∧ t.outSignal = true ∧
      t.out = s.out ++ [s.reg rs] ∧ t.portWait = .output ∧ sameRegs s t ∧ t.pc = s.pc ∧
      sameMemory s t ∧ t.ackEvents = s.ackEvents.tail ∧ t.ie = s.ie ∧ t.halted = s.halted ∧
      t.inEvents = s.inEvents ∧ t.irqEvents = s.irqEvents

/-- The three states in which the machine executes nothing (rule R185). Halted: all state is kept. A wait
goes on, with all state but the devices' answers kept, until its device answers, and then completes the
waiting instruction, with its device's answer and the environment's `irq` spent and the rest kept (rules
R122, R123, R126; what the output port shows after the acknowledge is open, assumption 16). An interrupt during a wait is rule R127's and excluded by `interruptTaken = false`. -/
def Obligations.WaitStates : Prop :=
  ∀ s, (s.halted = true → step s = .next s) ∧
    (s.halted = false → s.interruptTaken = false →
      (∀ rd, s.portWait = .input rd →
        (s.inputOffered = none → step s = .next { s with
          inEvents := s.inEvents.tail, irqEvents := s.irqEvents.tail }) ∧
        (∀ v, s.inputOffered = some v → ∃ t, step s = .next t ∧ t.reg rd = v ∧ sameRegsBut rd s t ∧
          atNext s t ∧ sameMemory s t ∧ t.portWait = .idle ∧ t.inEvents = s.inEvents.tail ∧
          t.irqEvents = s.irqEvents.tail ∧ t.ie = s.ie ∧ t.halted = s.halted ∧ t.out = s.out ∧
          t.outPort = s.outPort ∧ t.outSignal = s.outSignal ∧ t.ackEvents = s.ackEvents)) ∧
      (s.portWait = .output →
        (s.ackEvents.headD false = false → step s = .next { s with
          ackEvents := s.ackEvents.tail, irqEvents := s.irqEvents.tail }) ∧
        (s.ackEvents.headD false = true → ∃ t, step s = .next t ∧ sameRegs s t ∧ atNext s t ∧
          sameMemory s t ∧ t.out = s.out ∧ t.portWait = .idle ∧ t.ackEvents = s.ackEvents.tail ∧
          t.irqEvents = s.irqEvents.tail ∧ t.ie = s.ie ∧ t.halted = s.halted ∧
          t.inEvents = s.inEvents)))

/-- Program order at the ports (rules R42, R126): a step appends at most one word to the output trace and
consumes at most the first word of the input. -/
def Obligations.PortStreams : Prop :=
  ∀ s t, step s = .next t →
    (t.out = s.out ∨ ∃ v, t.out = s.out ++ [v]) ∧
    (t.inWords = s.inWords ∨ ∃ v, s.inWords = v :: t.inWords)

/-! ### Memory, loads and stores (rules R30 to R45, R130 to R132) -/

/-- `MemRead` (rule R33): it returns the word the memory holds at a populated address; it is what fetch and
LWD use, and the LWD changes no memory and no other state. Outside the populated range neither `MemRead` nor
`MemWrite` has a step (rule R39, decision D22). That this is a fault with a name is the model's choice
(assumption 22), and that a populated address may hold no value is decision D10 (assumption 7). -/
def Obligations.MemReadReturns : Prop :=
  (∀ words a v m, memRead words a m = .ok v ↔ a.toNat < words ∧ Memory.lookup m a.toNat = some v) ∧
  (∀ words a m, words ≤ a.toNat → memRead words a m = .error (.unpopulatedAccess a)) ∧
  (∀ words a v m, words ≤ a.toNat → memWrite words a v m = .error (.unpopulatedAccess a)) ∧
  (∀ s f, memRead Config.memWords s.pc s.mem = .error f → fetchInstr s = .error f) ∧
  (∀ s w i, memRead Config.memWords s.pc s.mem = .ok w → decode w = .ok i → fetchInstr s = .ok i) ∧
  (∀ rt rs offset s v, memRead Config.memWords (effectiveAddress (s.reg rs) offset) s.mem = .ok v →
    ∃ t, exec (.lwd rt rs offset) s = .next t ∧ t.reg rt = v ∧ onlyResult rt s t)

/-- `MemWrite` (rule R34): it sets one word and leaves every other word unchanged, and SWD is the only
instruction that uses it. -/
def Obligations.MemWriteSets : Prop :=
  (∀ words a v m, a.toNat < words → ∃ m', memWrite words a v m = .ok m' ∧
    Memory.lookup m' a.toNat = some v ∧ ∀ b, b ≠ a.toNat → Memory.lookup m' b = Memory.lookup m b) ∧
  (∀ rt rs offset s t, exec (.swd rt rs offset) s = .next t →
    memWrite Config.memWords (effectiveAddress (s.reg rs) offset) (s.reg rt) s.mem = .ok t.mem) ∧
  (∀ i s t, exec i s = .next t → (∀ rt rs offset, i ≠ .swd rt rs offset) → t.mem = s.mem)

/-- The effective address: base plus signed displacement in words, modulo 65536 (rule R38; the wrap is
decision D8). -/
def Obligations.EffectiveAddress : Prop :=
  ∀ base offset,
    ((effectiveAddress base offset).toNat : Int) = ((base.toNat : Int) + offset.toInt) % 65536

/-- LWD (rules R130, R131): the word at the effective address, formed with the old base, is loaded. -/
def Obligations.LwdResult : Prop :=
  ∀ rt rs offset s v, s.word (effectiveAddress (s.reg rs) offset) = some v →
    ∃ t, exec (.lwd rt rs offset) s = .next t ∧ t.reg rt = v ∧ onlyResult rt s t

/-- LWD of a word that was never loaded nor stored stops (rules R24, R171, decision D10). -/
def Obligations.LwdStops : Prop :=
  ∀ rt rs offset s, s.word (effectiveAddress (s.reg rs) offset) = none →
    exec (.lwd rt rs offset) s = .fault (.uninitialisedMemory (effectiveAddress (s.reg rs) offset))

/-- SWD (rules R130, R132): one word of memory and the pc, nothing else. -/
def Obligations.SwdResult : Prop :=
  ∀ rt rs offset s, ∃ t, exec (.swd rt rs offset) s = .next t ∧
    t.word (effectiveAddress (s.reg rs) offset) = some (s.reg rt) ∧
    (∀ a, a ≠ effectiveAddress (s.reg rs) offset → t.word a = s.word a) ∧
    sameRegs s t ∧ atNext s t ∧ sameRest s t

/-- A store is seen by the fetch of that address with no other action, whichever instruction comes to be
at the pc (rule R45, decisions D5 and D17). -/
def Obligations.StoreSeenByFetch : Prop :=
  ∀ rt rs offset s t i, exec (.swd rt rs offset) s = .next t → decode (s.reg rt) = .ok i →
    fetchInstr { t with pc := effectiveAddress (s.reg rs) offset } = .ok i

/-! ### Branches (rules R140 to R144; the wrap of the target is decision D8) -/

/-- BNE and BEQ: the target if all sixteen bits differ somewhere, or agree everywhere. -/
def Obligations.BneBeqResult : Prop :=
  ∀ rs rt offset s,
    (∃ t, exec (.bne rs rt offset) s = .next t ∧ onlyPc s t ∧
      (t.pc.toNat : Int) =
        (s.pc.toNat + 1 + if s.reg rs = s.reg rt then 0 else offset.toInt) % 65536) ∧
    (∃ t, exec (.beq rs rt offset) s = .next t ∧ onlyPc s t ∧
      (t.pc.toNat : Int) =
        (s.pc.toNat + 1 + if s.reg rs = s.reg rt then offset.toInt else 0) % 65536)

/-- BGZ and BLZ: the target if the register is 0x0001 to 0x7FFF, or 0x8000 to 0xFFFF. -/
def Obligations.BgzBlzResult : Prop :=
  ∀ rs offset s,
    (∃ t, exec (.bgz rs offset) s = .next t ∧ onlyPc s t ∧
      (t.pc.toNat : Int) = (s.pc.toNat + 1 +
        if 1 ≤ (s.reg rs).toNat ∧ (s.reg rs).toNat ≤ 0x7FFF then offset.toInt else 0) % 65536) ∧
    (∃ t, exec (.blz rs offset) s = .next t ∧ onlyPc s t ∧
      (t.pc.toNat : Int) = (s.pc.toNat + 1 +
        if 0x8000 ≤ (s.reg rs).toNat then offset.toInt else 0) % 65536)

/-! ### Jumps (rules R150 to R156; the region is decision D12, assumption 12) -/

/-- JMP (rules R150, R151): the region of the next instruction, and the target in it. -/
def Obligations.JmpResult : Prop :=
  ∀ target s, ∃ t, exec (.jmp target) s = .next t ∧ onlyPc s t ∧
    t.pc.toNat = (s.pc.toNat + 1) % 65536 / 4096 * 4096 + target.toNat

/-- JAL (rules R150, R152): as JMP, and the address of the next instruction in `$2`. -/
def Obligations.JalResult : Prop :=
  ∀ target s, ∃ t, exec (.jal target) s = .next t ∧
    (t.reg .r2).toNat = (s.pc.toNat + 1) % 65536 ∧ sameRegsBut .r2 s t ∧
    t.pc.toNat = (s.pc.toNat + 1) % 65536 / 4096 * 4096 + target.toNat ∧
    sameMemory s t ∧ sameRest s t

/-- JPR (rule R153): all sixteen bits of the register. -/
def Obligations.JprResult : Prop :=
  ∀ rs s, ∃ t, exec (.jpr rs) s = .next t ∧ t.pc = s.reg rs ∧ onlyPc s t

/-- JRL with a register other than `$2` (rule R154). -/
def Obligations.JrlResult : Prop :=
  ∀ rs s, rs ≠ .r2 → ∃ t, exec (.jrl rs) s = .next t ∧ t.pc = s.reg rs ∧
    (t.reg .r2).toNat = (s.pc.toNat + 1) % 65536 ∧ sameRegsBut .r2 s t ∧ sameMemory s t ∧ sameRest s t

/-- `JRL $2` (rule R155): `$2` holds the link under both readings, and the pc is the one of the reading
that JRL_SELF_LINK takes; the statement holds whichever it is (assumption 13). -/
def Obligations.JrlSelfResult : Prop :=
  ∀ s, ∃ t, exec (.jrl .r2) s = .next t ∧
    (t.reg .r2).toNat = (s.pc.toNat + 1) % 65536 ∧ sameRegsBut .r2 s t ∧ sameMemory s t ∧
    sameRest s t ∧
    (Config.jrlSelfLink = .readFirst → t.pc = s.reg .r2) ∧
    (Config.jrlSelfLink = .writeFirst → atNext s t)

/-- The two values of JUMP_REGION give the same target everywhere but at an address whose low twelve bits
are 0xFFF, and there they give different ones (rule R150, conflict C15). -/
def Obligations.RegionsAgree : Prop :=
  ∀ (pc : Word) target,
    (pc.toNat % 4096 ≠ 4095 → jumpTarget .self pc target = jumpTarget .next pc target) ∧
    (pc.toNat % 4096 = 4095 → jumpTarget .self pc target ≠ jumpTarget .next pc target)

/-- A call and its return: after a JAL, or a JRL with another register than `$2`, `JPR $2` goes to the
instruction after the call (rule R156). -/
def Obligations.CallReturns : Prop :=
  ∀ s, (∀ target, ∃ t u, exec (.jal target) s = .next t ∧ exec (.jpr .r2) t = .next u ∧ atNext s u) ∧
    (∀ rs, rs ≠ .r2 →
      ∃ t u, exec (.jrl rs) s = .next t ∧ exec (.jpr .r2) t = .next u ∧ atNext s u)

/-- JPR and JRL are the only instructions that reach any address (rule R150): every other instruction goes
on 128 words before the next one to 127 after it (rule R140), or in the next one's region. HLT goes on
nowhere and is left out: no claim may read the pc of a halted machine (rule R161, decision D18). -/
def Obligations.OthersStayNear : Prop :=
  ∀ i s t, exec i s = .next t → (∀ rs, i ≠ .jpr rs ∧ i ≠ .jrl rs) → i ≠ .hlt →
    (∃ d : Int, -128 ≤ d ∧ d ≤ 127 ∧ (t.pc.toNat : Int) = (s.pc.toNat + 1 + d) % 65536) ∨
    t.pc.toNat / 4096 = (s.pc.toNat + 1) % 65536 / 4096

/-! ### System instructions (rules R160 to R163) -/

/-- HLT and the halted state (rule R19): HLT sets `halted`, nothing else does, and a halted machine
executes no instruction and changes no state, so that it stays halted. -/
def Obligations.HaltedState : Prop :=
  (∀ s, ∃ t, exec .hlt s = .next t ∧ t.halted = true) ∧
  (∀ s t, step s = .next t → s.halted = false → t.halted = true → fetchInstr s = .ok .hlt) ∧
  (∀ s, s.halted = true → step s = .next s)

/-- HLT keeps registers, memory, `IE`, the ports and the trace (rule R161). The pc is not stated: no claim
may read it (decision D18). -/
def Obligations.HltResult : Prop :=
  ∀ s, ∃ t, exec .hlt s = .next t ∧ t.halted = true ∧ sameRegs s t ∧ sameMemory s t ∧ t.ie = s.ie ∧
    t.portWait = s.portWait ∧ t.outPort = s.outPort ∧ t.outSignal = s.outSignal ∧ t.out = s.out ∧
    t.inEvents = s.inEvents ∧ t.ackEvents = s.ackEvents ∧ t.irqEvents = s.irqEvents

/-- ENI and DSI (rules R162, R163): `IE` and the pc, nothing else. The effect of ENI is decision D14 and
that DSI does nothing else decision D24. -/
def Obligations.EniDsiResult : Prop :=
  ∀ s,
    (∃ t, exec .eni s = .next t ∧ t.ie = true ∧ sameRegs s t ∧ atNext s t ∧ sameMemory s t ∧
      sameRest s { t with ie := s.ie }) ∧
    (∃ t, exec .dsi s = .next t ∧ t.ie = false ∧ sameRegs s t ∧ atNext s t ∧ sameMemory s t ∧
      sameRest s { t with ie := s.ie })

/-! ### The step, interrupts and stops (rules R170 to R178, R192) -/

/-- A step runs the decoded instruction (rules R47, R192): when the machine is not halted, no port
instruction waits, no interrupt is taken and the word at the pc decodes, the step is that instruction's
effect, the environment's `irq` for this step being spent. -/
def Obligations.StepRunsDecoded : Prop :=
  ∀ s w i, s.halted = false → s.interruptTaken = false → s.portWait = .idle →
    s.word s.pc = some w → decode w = .ok i →
    step s = exec i { s with irqEvents := s.irqEvents.tail }

/-- The stops of fetch and decode (rules R61, R171, R177, decisions D3 and D10). -/
def Obligations.FetchStops : Prop :=
  ∀ s, s.halted = false → s.interruptTaken = false → s.portWait = .idle →
    (s.word s.pc = none → step s = .fault (.uninitialisedMemory s.pc)) ∧
    (∀ w e, s.word s.pc = some w → decode w = .error e → step s = .fault (.illegalInstruction w))

/-- An enabled and requested interrupt is taken before the next fetch, and, INTERRUPT_ENTRY having no
value, the step is refused (rules R171, R176, R177, decisions D15 and D25, assumption 15). -/
def Obligations.InterruptRefused : Prop :=
  ∀ s es, s.halted = false → s.ie = true → s.irqEvents = true :: es →
    step s = .refused .interruptEntryOpen

/-- While `IE` is 0 no interrupt is taken, whatever `irq` is (rule R174): no step is refused, and another
`irq` at this step gives the same outcome. -/
def Obligations.DisabledMeansDisabled : Prop :=
  ∀ s, s.ie = false → (∀ r, step s ≠ .refused r) ∧
    ∀ b c es, s.halted = false →
      step { s with irqEvents := b :: es } = step { s with irqEvents := c :: es }

/-- Only ENI enables interrupts (rules R13, R174): a program that never executes ENI is never
interrupted. -/
def Obligations.OnlyEniEnables : Prop :=
  ∀ s t, step s = .next t → s.ie = false → t.ie = true → fetchInstr s = .ok .eni

/-- No instruction has an exception (rules R100, R110, R130, R140, R170): none is refused, and the only
instruction that stops on a machine whose memory is all populated is an LWD of a word that holds no
value. Both clauses are the model's choice: the spec faults the read of a register that nothing has
written (rule R171, decision D10), where registers here hold a value (assumption 10), and leaves `JRL $2`
open, which runs here under either reading (assumption 13). -/
def Obligations.OnlyLoadsStop : Prop :=
  ∀ i s, (∀ r, exec i s ≠ .refused r) ∧
    ∀ f, exec i s = .fault f → ∃ rt rs offset, i = .lwd rt rs offset ∧
      s.word (effectiveAddress (s.reg rs) offset) = none ∧
      f = .uninitialisedMemory (effectiveAddress (s.reg rs) offset)

/-- The column Writes of rule R13's table: an instruction changes only what it lists, the pc aside, and,
for RWD and WWD, the wait and the device's spent answer (assumption 19). -/
def Obligations.WritesAsListed : Prop :=
  ∀ i s t, exec i s = .next t →
    (∀ r, r ∉ writtenRegs i → t.reg r = s.reg r) ∧
    ((∀ rt rs offset, i ≠ .swd rt rs offset) → ∀ a, t.word a = s.word a) ∧
    (∀ rt rs offset, i = .swd rt rs offset →
      ∀ a, a ≠ effectiveAddress (s.reg rs) offset → t.word a = s.word a) ∧
    (i ≠ .eni → i ≠ .dsi → t.ie = s.ie) ∧
    (i ≠ .hlt → t.halted = s.halted) ∧
    ((∀ rs, i ≠ .wwd rs) → t.out = s.out ∧ t.outPort = s.outPort ∧ t.outSignal = s.outSignal) ∧
    ((∀ rs, i ≠ .wwd rs) → t.ackEvents = s.ackEvents) ∧
    ((∀ rd, i ≠ .rwd rd) → t.inEvents = s.inEvents) ∧
    ((∀ r, i ≠ .rwd r ∧ i ≠ .wwd r) → t.portWait = s.portWait) ∧
    t.irqEvents = s.irqEvents

/-- The column Reads of rule R13's table: the value of a register an instruction does not list has no
influence on what it does, and stays where it is unless the instruction writes that register. -/
def Obligations.ReadsAsListed : Prop :=
  ∀ i s r v, r ∉ readRegs i →
    (∀ f, exec i s = .fault f → exec i (s.setReg r v) = .fault f) ∧
    (∀ t, exec i s = .next t → ∃ t', exec i (s.setReg r v) = .next t' ∧
      t'.setReg r 0 = t.setReg r 0 ∧ (t'.reg r = t.reg r ∨ t'.reg r = v))

/-! ### The host interface (rule R191) -/

/-- A program the host loads stands in memory word for word from its start, addresses modulo 65536. -/
def Obligations.LoadPlacesWords : Prop :=
  ∀ (s : State) (start : Word) (ws : List Word), ws.length ≤ 65536 →
    ∀ (k : Nat) (h : k < ws.length), (s.load start ws).word (start + BitVec.ofNat 16 k) = some ws[k]

/-- The next step after a word is placed runs it, from every state. -/
def Obligations.PlacedWordRuns : Prop :=
  ∀ s w i, decode (BitVec.ofNat 16 w) = .ok i → w < 65536 →
    step (s.withFetchWord 16 w) = exec i (s.withFetchWord 16 w).sampleIrq ∧
    sameRegs s (s.withFetchWord 16 w) ∧ (s.withFetchWord 16 w).pc = s.pc
end

