-- ==== Sys2Proof/Laws/Assembler.lean ====
section
/-! SUPPORT. The laws of the two passes over a program's text: labels and words are those of the parts of
the text, the second part standing at the address after the first. -/

namespace Sys2Proof.Machine

/-- The labels of two parts of a program. -/
theorem collectLabels_append (a : Word) (xs ys : List (List Char)) :
    collectLabels a (xs ++ ys) = collectLabels a xs ++ collectLabels (xs.foldl addressAfter a) ys := by
  induction xs generalizing a with
  | nil => rfl
  | cons x xs ih =>
      simp only [List.cons_append, collectLabels, List.foldl_cons, ih]
      split <;> rfl

/-- A label stands for the address its line has, whatever is written before and after it. -/
theorem mem_collectLabels (a : Word) (xs ys : List (List Char)) {text name : List Char}
    (h : (splitSource text).label = some name) :
    (name, xs.foldl addressAfter a) ∈ collectLabels a (xs ++ text :: ys) := by
  simp [collectLabels_append, collectLabels, h]

/-- A line with an instruction gives one word and a line without one gives none, so that the words of two
parts of a program are those of the first and then those of the second. -/
theorem assembleLines_append (labels : List (List Char × Word)) (a : Word) (xs ys : List (List Char)) :
    assembleLines labels a (xs ++ ys) =
      match assembleLines labels a xs, assembleLines labels (xs.foldl addressAfter a) ys with
      | some ws, some vs => some (ws ++ vs)
      | _, _ => none := by
  induction xs generalizing a with
  | nil => cases h : assembleLines labels a ys <;> simp [assembleLines, h]
  | cons x xs ih =>
      simp only [List.cons_append, assembleLines, List.foldl_cons, addressAfter]
      split
      · exact ih a
      · rw [ih (a + 1)]
        cases assembleText labels a x <;> cases assembleLines labels (a + 1) xs <;>
          cases assembleLines labels (xs.foldl addressAfter (a + 1)) ys <;> rfl

/-- The address of a line is the start plus the number of words before it. -/
theorem address_eq_add_length {labels : List (List Char × Word)} {a : Word} {xs : List (List Char)}
    {ws : List Word} (h : assembleLines labels a xs = some ws) :
    xs.foldl addressAfter a = a + BitVec.ofNat 16 ws.length := by
  induction xs generalizing a ws with
  | nil =>
      cases h
      simp
  | cons x xs ih =>
      simp only [assembleLines] at h
      rw [List.foldl_cons, addressAfter]
      split at h
      · next hx => rw [if_pos hx, ih h]
      · next hx =>
          rw [if_neg hx]
          split at h
          · next w vs hw hv =>
              cases h
              rw [ih hv, List.length_cons, BitVec.add_assoc]
              congr 1
              apply BitVec.eq_of_toNat_eq
              simp [Nat.add_comm]
          · cases h

end Sys2Proof.Machine
end

