-- ==== Sys2Proof/Laws/Decode.lean ====
section
/-! SUPPORT. The fields of encoded words, the bits a table row selects, and register numbers there and
back. -/

namespace Sys2Proof

@[simp] theorem Reg.ofBits_toBits (r : Reg) : Reg.ofBits r.toBits = r := by
  cases r <;> rfl

@[simp] theorem Reg.toBits_ofBits (b : BitVec 2) : (Reg.ofBits b).toBits = b := by
  revert b; decide

/-- With unused fields ignored, decoding is the selection by `op` and `fn` alone (rule R56). -/
theorem decode_eq_decodeFields (w : Word) : decode w = decodeFields Config.layout w := by
  unfold decode decodeWith
  cases h : decodeFields Config.layout w <;> rfl

/-- The opcode as a number. -/
theorem opField_toNat (w : Word) : (opField Config.layout w).toNat = w.toNat / 4096 := by
  have := w.isLt
  simp only [opField, Config.layout, BitVec.extractLsb'_toNat, Nat.shiftRight_eq_div_pow]
  omega

/-- The function code as a number. -/
theorem fnField_toNat (w : Word) : (fnField Config.layout w).toNat = w.toNat % 64 := by
  simp only [fnField, Config.layout, BitVec.extractLsb'_toNat, Nat.shiftRight_zero]

/-! ### The R format: `op rs rt rd fn` (rules R53, R69) -/

section RFormat

variable (fn : BitVec 6) (rs rt rd : Reg)

@[simp] theorem opField_encodeR : opField Config.layout (encodeR Config.layout fn rs rt rd) = 15 := by
  unfold opField encodeR
  apply BitVec.eq_of_getLsbD_eq
  intro i hi
  interval_cases i <;> simp [place, Config.layout]

@[simp] theorem fnField_encodeR : fnField Config.layout (encodeR Config.layout fn rs rt rd) = fn := by
  unfold fnField encodeR
  apply BitVec.eq_of_getLsbD_eq
  intro i hi
  interval_cases i <;> simp [place, Config.layout]

@[simp] theorem rsField_encodeR : rsField Config.layout (encodeR Config.layout fn rs rt rd) = rs := by
  have h : (encodeR Config.layout fn rs rt rd).extractLsb' Config.layout.rsLo 2 = rs.toBits := by
    unfold encodeR
    apply BitVec.eq_of_getLsbD_eq
    intro i hi
    interval_cases i <;> simp [place, Config.layout]
  rw [rsField, h, Reg.ofBits_toBits]

@[simp] theorem rtField_encodeR : rtField Config.layout (encodeR Config.layout fn rs rt rd) = rt := by
  have h : (encodeR Config.layout fn rs rt rd).extractLsb' Config.layout.rtLo 2 = rt.toBits := by
    unfold encodeR
    apply BitVec.eq_of_getLsbD_eq
    intro i hi
    interval_cases i <;> simp [place, Config.layout]
  rw [rtField, h, Reg.ofBits_toBits]

@[simp] theorem rdField_encodeR : rdField Config.layout (encodeR Config.layout fn rs rt rd) = rd := by
  have h : (encodeR Config.layout fn rs rt rd).extractLsb' Config.layout.rdLo 2 = rd.toBits := by
    unfold encodeR
    apply BitVec.eq_of_getLsbD_eq
    intro i hi
    interval_cases i <;> simp [place, Config.layout]
  rw [rdField, h, Reg.ofBits_toBits]

/-- What an R-format row selects: the opcode and the function code. -/
theorem encodeR_masked :
    encodeR Config.layout fn rs rt rd &&& 0xF03F = 0xF000 ||| fn.setWidth 16 := by
  unfold encodeR
  apply BitVec.eq_of_getLsbD_eq
  intro i hi
  interval_cases i <;> simp [place, Config.layout]

end RFormat

/-! ### The I format: `op rs rt imm` (rules R54, R69) -/

section IFormat

variable (op : BitVec 4) (rs rt : Reg) (imm : BitVec 8)

@[simp] theorem opField_encodeI : opField Config.layout (encodeI Config.layout op rs rt imm) = op := by
  unfold opField encodeI
  apply BitVec.eq_of_getLsbD_eq
  intro i hi
  interval_cases i <;> simp [place, Config.layout]

@[simp] theorem immField_encodeI : immField Config.layout (encodeI Config.layout op rs rt imm) = imm := by
  unfold immField encodeI
  apply BitVec.eq_of_getLsbD_eq
  intro i hi
  interval_cases i <;> simp [place, Config.layout]

@[simp] theorem rsField_encodeI : rsField Config.layout (encodeI Config.layout op rs rt imm) = rs := by
  have h : (encodeI Config.layout op rs rt imm).extractLsb' Config.layout.rsLo 2 = rs.toBits := by
    unfold encodeI
    apply BitVec.eq_of_getLsbD_eq
    intro i hi
    interval_cases i <;> simp [place, Config.layout]
  rw [rsField, h, Reg.ofBits_toBits]

@[simp] theorem rtField_encodeI : rtField Config.layout (encodeI Config.layout op rs rt imm) = rt := by
  have h : (encodeI Config.layout op rs rt imm).extractLsb' Config.layout.rtLo 2 = rt.toBits := by
    unfold encodeI
    apply BitVec.eq_of_getLsbD_eq
    intro i hi
    interval_cases i <;> simp [place, Config.layout]
  rw [rtField, h, Reg.ofBits_toBits]

/-- What an I-format row selects: the opcode. -/
theorem encodeI_masked : encodeI Config.layout op rs rt imm &&& 0xF000 = op.setWidth 16 <<< 12 := by
  unfold encodeI
  apply BitVec.eq_of_getLsbD_eq
  intro i hi
  interval_cases i <;> simp [place, Config.layout]

end IFormat

/-! ### The J format: `op target` (rules R55, R69) -/

section JFormat

variable (op : BitVec 4) (target : BitVec 12)

@[simp] theorem opField_encodeJ : opField Config.layout (encodeJ Config.layout op target) = op := by
  unfold opField encodeJ
  apply BitVec.eq_of_getLsbD_eq
  intro i hi
  interval_cases i <;> simp [place, Config.layout]

@[simp] theorem targetField_encodeJ : targetField Config.layout (encodeJ Config.layout op target) = target := by
  unfold targetField encodeJ
  apply BitVec.eq_of_getLsbD_eq
  intro i hi
  interval_cases i <;> simp [place, Config.layout]

/-- What a J-format row selects: the opcode. -/
theorem encodeJ_masked : encodeJ Config.layout op target &&& 0xF000 = op.setWidth 16 <<< 12 := by
  unfold encodeJ
  apply BitVec.eq_of_getLsbD_eq
  intro i hi
  interval_cases i <;> simp [place, Config.layout]

end JFormat

end Sys2Proof
end

