-- ==== Sys2Proof/Laws/Memory.lean ====
section
/-! SUPPORT. The laws of memory: a read after a write, and the canonical form. -/

namespace Sys2Proof.Machine

/-- A word reads as the value last put there. -/
@[simp] theorem Memory.lookup_insert_same (m : Memory) (a : Nat) (v : Word) :
    Memory.lookup (Memory.insert m a v) a = some v := by
  induction m with
  | nil => simp [Memory.insert, Memory.lookup]
  | cons c m ih =>
      obtain ⟨k, w⟩ := c
      unfold Memory.insert
      split
      · simp [Memory.lookup]
      · split
        · simp [Memory.lookup]
        · simp only [Memory.lookup]
          rw [if_neg (by omega), ih]

/-- A write leaves every other address alone. -/
theorem Memory.lookup_insert_other (m : Memory) (v : Word) {a b : Nat} (h : b ≠ a) :
    Memory.lookup (Memory.insert m a v) b = Memory.lookup m b := by
  induction m with
  | nil => simp [Memory.insert, Memory.lookup, h.symm]
  | cons c m ih =>
      obtain ⟨k, w⟩ := c
      unfold Memory.insert
      split
      · simp [Memory.lookup, h.symm]
      · split
        · next hk => simp [Memory.lookup, h.symm, ← hk]
        · simp only [Memory.lookup, ih]

/-- The cells of a memory after a write are the new one and some of the old ones. -/
theorem Memory.mem_insert {m : Memory} {a : Nat} {v : Word} {c : Nat × Word}
    (h : c ∈ Memory.insert m a v) : c = (a, v) ∨ c ∈ m := by
  induction m with
  | nil => simpa [Memory.insert] using h
  | cons d m ih =>
      obtain ⟨k, w⟩ := d
      unfold Memory.insert at h
      split at h
      · simpa using h
      · split at h
        · rcases List.mem_cons.mp h with h | h
          · exact .inl h
          · exact .inr (List.mem_cons_of_mem _ h)
        · rcases List.mem_cons.mp h with h | h
          · exact .inr (h ▸ List.mem_cons_self)
          · exact (ih h).imp_right (List.mem_cons_of_mem _)

/-- A write keeps the addresses strictly rising. -/
theorem Memory.insert_rising {m : Memory} (a : Nat) (v : Word)
    (h : (m.map Prod.fst).Pairwise (· < ·)) :
    ((Memory.insert m a v).map Prod.fst).Pairwise (· < ·) := by
  induction m with
  | nil => simp [Memory.insert]
  | cons c m ih =>
      obtain ⟨k, w⟩ := c
      rw [List.map_cons, List.pairwise_cons] at h
      obtain ⟨hk, hm⟩ := h
      unfold Memory.insert
      split
      · next hak =>
          simp only [List.map_cons, List.pairwise_cons]
          refine ⟨fun b hb => ?_, hk, hm⟩
          rcases List.mem_cons.mp hb with rfl | hb
          · exact hak
          · exact Nat.lt_trans hak (hk b hb)
      · split
        · next hak => subst hak; exact List.pairwise_cons.mpr ⟨hk, hm⟩
        · next h1 h2 =>
            rw [List.map_cons, List.pairwise_cons]
            refine ⟨fun b hb => ?_, ih hm⟩
            obtain ⟨c, hc, rfl⟩ := List.mem_map.mp hb
            rcases Memory.mem_insert hc with rfl | hc
            · show k < a
              omega
            · exact hk _ (List.mem_map_of_mem hc)

/-- A write at a populated address keeps the canonical form. -/
theorem Memory.insert_wf {m : Memory} {a : Nat} (v : Word) (h : m.wf) (ha : a < Config.memWords) :
    (Memory.insert m a v).wf := by
  refine ⟨Memory.insert_rising a v h.1, fun c hc => ?_⟩
  rcases Memory.mem_insert hc with rfl | hc
  · exact ha
  · exact h.2 c hc

/-- Every address of this machine is populated: MEM_WORDS is 65536. -/
theorem toNat_lt_memWords (a : Word) : a.toNat < Config.memWords := a.isLt

/-- All that a read can answer. -/
theorem memRead_eq_ok {words : Nat} {a v : Word} {m : Memory} :
    memRead words a m = .ok v ↔ a.toNat < words ∧ Memory.lookup m a.toNat = some v := by
  unfold memRead
  split
  · next h => cases hl : Memory.lookup m a.toNat <;> simp [h]
  · next h => simp [h]

/-- All the ways a read can stop. -/
theorem memRead_eq_error {words : Nat} {a : Word} {m : Memory} {f : Fault} :
    memRead words a m = .error f ↔
      (a.toNat < words ∧ Memory.lookup m a.toNat = none ∧ f = .uninitialisedMemory a) ∨
        (words ≤ a.toNat ∧ f = .unpopulatedAccess a) := by
  unfold memRead
  split
  · next h =>
      cases hl : Memory.lookup m a.toNat <;> simp [h, eq_comm (a := f)]
  · next h => simp [h, eq_comm (a := f), Nat.le_of_not_lt h]

/-- All that a write can answer. -/
theorem memWrite_eq_ok {words : Nat} {a v : Word} {m m' : Memory} :
    memWrite words a v m = .ok m' ↔ a.toNat < words ∧ m' = Memory.insert m a.toNat v := by
  unfold memWrite
  split
  · next h => simp [h, eq_comm (a := m')]
  · next h => simp [h]

/-- Whatever a write answers keeps the canonical form. -/
theorem memWrite_wf {a v : Word} {m m' : Memory} (h : memWrite Config.memWords a v m = .ok m')
    (hm : m.wf) : m'.wf := by
  obtain ⟨ha, rfl⟩ := memWrite_eq_ok.mp h
  exact Memory.insert_wf v hm ha

/-- On this machine every write succeeds. -/
theorem memWrite_populated (a v : Word) (m : Memory) :
    memWrite Config.memWords a v m = .ok (Memory.insert m a.toNat v) :=
  memWrite_eq_ok.mpr ⟨toNat_lt_memWords a, rfl⟩

/-- On this machine a read stops only where the address holds no value. -/
theorem memRead_populated (a : Word) (m : Memory) :
    memRead Config.memWords a m =
      match Memory.lookup m a.toNat with
      | some v => .ok v
      | none => .error (.uninitialisedMemory a) :=
  if_pos (toNat_lt_memWords a)

/-- Loading a program keeps the canonical form. -/
theorem State.load_wf (s : State) (start : Word) (ws : List Word) (h : s.mem.wf) :
    (s.load start ws).mem.wf := by
  induction ws generalizing s start with
  | nil => exact h
  | cons w ws ih => exact ih _ _ (Memory.insert_wf w h (toNat_lt_memWords start))

/-- Placing the word of the next step keeps the canonical form. -/
theorem State.readyToRun_wf (s : State) (w : Word) (h : s.mem.wf) : (s.readyToRun w).mem.wf :=
  Memory.insert_wf w h (toNat_lt_memWords s.pc)

end Sys2Proof.Machine
end

