-- ==== Sys2Proof/Laws/Ops.lean ====
section
/-! SUPPORT. For each shared operation, everything it can do. -/

namespace Sys2Proof.Machine

/-- A register result always completes. -/
theorem writeResult_next {rd : Reg} {v : Word} {s t : State} :
    writeResult rd v s = .next t ↔ t = (s.setReg rd v).advance := by
  simp [writeResult, eq_comm (a := t)]

/-- A poll of the input device either leaves the RWD waiting or completes it; it never stops. -/
theorem pollInput_cases (rd : Reg) (s : State) :
    (s.inEvents = [] ∧ pollInput rd s = .next { s with portWait := .input rd }) ∨
    (∃ es, s.inEvents = none :: es ∧
      pollInput rd s = .next { s with portWait := .input rd, inEvents := es }) ∨
    (∃ v es, s.inEvents = some v :: es ∧ pollInput rd s =
      .next (State.setReg { s with portWait := .idle, inEvents := es } rd v).advance) := by
  unfold pollInput
  split
  · exact .inl ⟨‹_›, rfl⟩
  · exact .inr (.inl ⟨_, ‹_›, rfl⟩)
  · exact .inr (.inr ⟨_, _, ‹_›, rfl⟩)

/-- A poll of the output device either leaves the WWD waiting or completes it; it never stops. -/
theorem pollOutput_cases (s : State) :
    (s.ackEvents = [] ∧ pollOutput s = .next { s with portWait := .output }) ∨
    (∃ es, s.ackEvents = false :: es ∧
      pollOutput s = .next { s with portWait := .output, ackEvents := es }) ∨
    (∃ es, s.ackEvents = true :: es ∧
      pollOutput s = .next (releaseOutput { s with ackEvents := es }).advance) := by
  unfold pollOutput
  split
  · exact .inl ⟨‹_›, rfl⟩
  · exact .inr (.inl ⟨_, ‹_›, rfl⟩)
  · exact .inr (.inr ⟨_, ‹_›, rfl⟩)

/-- A branch always completes and changes the pc alone. -/
theorem branchIf_next {b : Bool} {offset : BitVec 8} {s t : State} :
    branchIf b offset s = .next t ↔
      t = s.jumpTo (if b then branchTarget s.npc offset else s.npc) := by
  simp [branchIf, eq_comm (a := t)]

/-- For every register but `$2` the two readings of JRL agree. -/
theorem jumpAndLink_reading {rs : Reg} (h : rs ≠ .r2) (reading : JrlSelfLink) (s : State) :
    jumpAndLink reading rs s = .next (s.link.jumpTo (s.reg rs)) := by
  cases reading <;> cases rs <;> first | rfl | exact absurd rfl h

/-- A load on this machine: it stops only where the address holds no value. -/
theorem execLwd_eq (rt rs : Reg) (offset : BitVec 8) (s : State) :
    execLwd rt rs offset s =
      match s.word (effectiveAddress (s.reg rs) offset) with
      | some v => .next (s.setReg rt v).advance
      | none => .fault (.uninitialisedMemory (effectiveAddress (s.reg rs) offset)) := by
  unfold execLwd
  rw [memRead_populated]
  show _ = match Memory.lookup s.mem (effectiveAddress (s.reg rs) offset).toNat with
    | some v => _
    | none => _
  cases Memory.lookup s.mem (effectiveAddress (s.reg rs) offset).toNat <;> rfl

/-- A store on this machine always completes. -/
theorem execSwd_eq (rt rs : Reg) (offset : BitVec 8) (s : State) :
    execSwd rt rs offset s = .next (State.advance { s with
      mem := Memory.insert s.mem (effectiveAddress (s.reg rs) offset).toNat (s.reg rt) }) := by
  unfold execSwd
  rw [memWrite_populated]

/-- Without a value for INTERRUPT_ENTRY taking an interrupt is refused. -/
theorem takeInterrupt_interruptEntry (s : State) :
    takeInterrupt interruptEntry s = .refused .interruptEntryOpen := rfl

end Sys2Proof.Machine
end

