-- ==== Sys2Proof/Laws/State.lean ====
section
/-! SUPPORT. One lemma per field and update of the state, and the register file's laws. -/

namespace Sys2Proof.Machine

/-! ### Updates, field by field -/

@[simp] theorem State.setReg_regs (s : State) (r : Reg) (v : Word) :
    (s.setReg r v).regs = s.regs.set r v := rfl
@[simp] theorem State.setReg_pc (s : State) (r : Reg) (v : Word) :
    (s.setReg r v).pc = s.pc := rfl
@[simp] theorem State.setReg_mem (s : State) (r : Reg) (v : Word) :
    (s.setReg r v).mem = s.mem := rfl
@[simp] theorem State.setReg_ie (s : State) (r : Reg) (v : Word) :
    (s.setReg r v).ie = s.ie := rfl
@[simp] theorem State.setReg_halted (s : State) (r : Reg) (v : Word) :
    (s.setReg r v).halted = s.halted := rfl
@[simp] theorem State.setReg_portWait (s : State) (r : Reg) (v : Word) :
    (s.setReg r v).portWait = s.portWait := rfl
@[simp] theorem State.setReg_outPort (s : State) (r : Reg) (v : Word) :
    (s.setReg r v).outPort = s.outPort := rfl
@[simp] theorem State.setReg_outSignal (s : State) (r : Reg) (v : Word) :
    (s.setReg r v).outSignal = s.outSignal := rfl
@[simp] theorem State.setReg_out (s : State) (r : Reg) (v : Word) :
    (s.setReg r v).out = s.out := rfl
@[simp] theorem State.setReg_inEvents (s : State) (r : Reg) (v : Word) :
    (s.setReg r v).inEvents = s.inEvents := rfl
@[simp] theorem State.setReg_ackEvents (s : State) (r : Reg) (v : Word) :
    (s.setReg r v).ackEvents = s.ackEvents := rfl
@[simp] theorem State.setReg_irqEvents (s : State) (r : Reg) (v : Word) :
    (s.setReg r v).irqEvents = s.irqEvents := rfl

@[simp] theorem State.jumpTo_regs (s : State) (t : Word) :
    (s.jumpTo t).regs = s.regs := rfl
@[simp] theorem State.jumpTo_pc (s : State) (t : Word) :
    (s.jumpTo t).pc = t := rfl
@[simp] theorem State.jumpTo_mem (s : State) (t : Word) :
    (s.jumpTo t).mem = s.mem := rfl
@[simp] theorem State.jumpTo_ie (s : State) (t : Word) :
    (s.jumpTo t).ie = s.ie := rfl
@[simp] theorem State.jumpTo_halted (s : State) (t : Word) :
    (s.jumpTo t).halted = s.halted := rfl
@[simp] theorem State.jumpTo_portWait (s : State) (t : Word) :
    (s.jumpTo t).portWait = s.portWait := rfl
@[simp] theorem State.jumpTo_outPort (s : State) (t : Word) :
    (s.jumpTo t).outPort = s.outPort := rfl
@[simp] theorem State.jumpTo_outSignal (s : State) (t : Word) :
    (s.jumpTo t).outSignal = s.outSignal := rfl
@[simp] theorem State.jumpTo_out (s : State) (t : Word) :
    (s.jumpTo t).out = s.out := rfl
@[simp] theorem State.jumpTo_inEvents (s : State) (t : Word) :
    (s.jumpTo t).inEvents = s.inEvents := rfl
@[simp] theorem State.jumpTo_ackEvents (s : State) (t : Word) :
    (s.jumpTo t).ackEvents = s.ackEvents := rfl
@[simp] theorem State.jumpTo_irqEvents (s : State) (t : Word) :
    (s.jumpTo t).irqEvents = s.irqEvents := rfl

@[simp] theorem State.advance_regs (s : State) :
    s.advance.regs = s.regs := rfl
@[simp] theorem State.advance_pc (s : State) :
    s.advance.pc = s.pc + 1 := rfl
@[simp] theorem State.advance_mem (s : State) :
    s.advance.mem = s.mem := rfl
@[simp] theorem State.advance_ie (s : State) :
    s.advance.ie = s.ie := rfl
@[simp] theorem State.advance_halted (s : State) :
    s.advance.halted = s.halted := rfl
@[simp] theorem State.advance_portWait (s : State) :
    s.advance.portWait = s.portWait := rfl
@[simp] theorem State.advance_outPort (s : State) :
    s.advance.outPort = s.outPort := rfl
@[simp] theorem State.advance_outSignal (s : State) :
    s.advance.outSignal = s.outSignal := rfl
@[simp] theorem State.advance_out (s : State) :
    s.advance.out = s.out := rfl
@[simp] theorem State.advance_inEvents (s : State) :
    s.advance.inEvents = s.inEvents := rfl
@[simp] theorem State.advance_ackEvents (s : State) :
    s.advance.ackEvents = s.ackEvents := rfl
@[simp] theorem State.advance_irqEvents (s : State) :
    s.advance.irqEvents = s.irqEvents := rfl

@[simp] theorem State.sampleIrq_regs (s : State) :
    s.sampleIrq.regs = s.regs := rfl
@[simp] theorem State.sampleIrq_pc (s : State) :
    s.sampleIrq.pc = s.pc := rfl
@[simp] theorem State.sampleIrq_mem (s : State) :
    s.sampleIrq.mem = s.mem := rfl
@[simp] theorem State.sampleIrq_ie (s : State) :
    s.sampleIrq.ie = s.ie := rfl
@[simp] theorem State.sampleIrq_halted (s : State) :
    s.sampleIrq.halted = s.halted := rfl
@[simp] theorem State.sampleIrq_portWait (s : State) :
    s.sampleIrq.portWait = s.portWait := rfl
@[simp] theorem State.sampleIrq_outPort (s : State) :
    s.sampleIrq.outPort = s.outPort := rfl
@[simp] theorem State.sampleIrq_outSignal (s : State) :
    s.sampleIrq.outSignal = s.outSignal := rfl
@[simp] theorem State.sampleIrq_out (s : State) :
    s.sampleIrq.out = s.out := rfl
@[simp] theorem State.sampleIrq_inEvents (s : State) :
    s.sampleIrq.inEvents = s.inEvents := rfl
@[simp] theorem State.sampleIrq_ackEvents (s : State) :
    s.sampleIrq.ackEvents = s.ackEvents := rfl
@[simp] theorem State.sampleIrq_irqEvents (s : State) :
    s.sampleIrq.irqEvents = s.irqEvents.tail := rfl

@[simp] theorem State.link_regs (s : State) :
    s.link.regs = s.regs.set .r2 (s.pc + 1) := rfl
@[simp] theorem State.link_pc (s : State) :
    s.link.pc = s.pc := rfl
@[simp] theorem State.link_mem (s : State) :
    s.link.mem = s.mem := rfl
@[simp] theorem State.link_ie (s : State) :
    s.link.ie = s.ie := rfl
@[simp] theorem State.link_halted (s : State) :
    s.link.halted = s.halted := rfl
@[simp] theorem State.link_portWait (s : State) :
    s.link.portWait = s.portWait := rfl
@[simp] theorem State.link_outPort (s : State) :
    s.link.outPort = s.outPort := rfl
@[simp] theorem State.link_outSignal (s : State) :
    s.link.outSignal = s.outSignal := rfl
@[simp] theorem State.link_out (s : State) :
    s.link.out = s.out := rfl
@[simp] theorem State.link_inEvents (s : State) :
    s.link.inEvents = s.inEvents := rfl
@[simp] theorem State.link_ackEvents (s : State) :
    s.link.ackEvents = s.ackEvents := rfl
@[simp] theorem State.link_irqEvents (s : State) :
    s.link.irqEvents = s.irqEvents := rfl

@[simp] theorem driveOutput_regs (v : Word) (s : State) :
    (driveOutput v s).regs = s.regs := rfl
@[simp] theorem driveOutput_pc (v : Word) (s : State) :
    (driveOutput v s).pc = s.pc := rfl
@[simp] theorem driveOutput_mem (v : Word) (s : State) :
    (driveOutput v s).mem = s.mem := rfl
@[simp] theorem driveOutput_ie (v : Word) (s : State) :
    (driveOutput v s).ie = s.ie := rfl
@[simp] theorem driveOutput_halted (v : Word) (s : State) :
    (driveOutput v s).halted = s.halted := rfl
@[simp] theorem driveOutput_portWait (v : Word) (s : State) :
    (driveOutput v s).portWait = s.portWait := rfl
@[simp] theorem driveOutput_outPort (v : Word) (s : State) :
    (driveOutput v s).outPort = some v := rfl
@[simp] theorem driveOutput_outSignal (v : Word) (s : State) :
    (driveOutput v s).outSignal = true := rfl
@[simp] theorem driveOutput_out (v : Word) (s : State) :
    (driveOutput v s).out = s.out ++ [v] := rfl
@[simp] theorem driveOutput_inEvents (v : Word) (s : State) :
    (driveOutput v s).inEvents = s.inEvents := rfl
@[simp] theorem driveOutput_ackEvents (v : Word) (s : State) :
    (driveOutput v s).ackEvents = s.ackEvents := rfl
@[simp] theorem driveOutput_irqEvents (v : Word) (s : State) :
    (driveOutput v s).irqEvents = s.irqEvents := rfl

@[simp] theorem releaseOutput_regs (s : State) :
    (releaseOutput s).regs = s.regs := rfl
@[simp] theorem releaseOutput_pc (s : State) :
    (releaseOutput s).pc = s.pc := rfl
@[simp] theorem releaseOutput_mem (s : State) :
    (releaseOutput s).mem = s.mem := rfl
@[simp] theorem releaseOutput_ie (s : State) :
    (releaseOutput s).ie = s.ie := rfl
@[simp] theorem releaseOutput_halted (s : State) :
    (releaseOutput s).halted = s.halted := rfl
@[simp] theorem releaseOutput_portWait (s : State) :
    (releaseOutput s).portWait = .idle := rfl
@[simp] theorem releaseOutput_outPort (s : State) :
    (releaseOutput s).outPort = Config.outPortAfterAck s.out.length := rfl
@[simp] theorem releaseOutput_outSignal (s : State) :
    (releaseOutput s).outSignal = Config.outSignalAfterAck s.out.length := rfl
@[simp] theorem releaseOutput_out (s : State) :
    (releaseOutput s).out = s.out := rfl
@[simp] theorem releaseOutput_inEvents (s : State) :
    (releaseOutput s).inEvents = s.inEvents := rfl
@[simp] theorem releaseOutput_ackEvents (s : State) :
    (releaseOutput s).ackEvents = s.ackEvents := rfl
@[simp] theorem releaseOutput_irqEvents (s : State) :
    (releaseOutput s).irqEvents = s.irqEvents := rfl

/-! ### Registers -/

/-- A register reads as the value last written to it. -/
@[simp] theorem Regs.get_set_same (x : Regs) (r : Reg) (v : Word) : (x.set r v).get r = v := by
  cases r <;> rfl

/-- A write leaves every other register alone. -/
theorem Regs.get_set_other (x : Regs) (v : Word) {r q : Reg} (h : q ≠ r) :
    (x.set r v).get q = x.get q := by
  cases r <;> cases q <;> first | rfl | exact absurd rfl h

@[simp] theorem State.reg_setReg_same (s : State) (r : Reg) (v : Word) :
    (s.setReg r v).reg r = v :=
  Regs.get_set_same s.regs r v

theorem State.reg_setReg_other (s : State) (v : Word) {r q : Reg} (h : q ≠ r) :
    (s.setReg r v).reg q = s.reg q :=
  Regs.get_set_other s.regs v h

theorem State.reg_setReg (s : State) (r q : Reg) (v : Word) :
    (s.setReg r v).reg q = if q = r then v else s.reg q := by
  split
  · subst q; exact s.reg_setReg_same r v
  · exact s.reg_setReg_other v ‹_›

@[simp] theorem State.reg_jumpTo (s : State) (t : Word) (r : Reg) : (s.jumpTo t).reg r = s.reg r := rfl
@[simp] theorem State.reg_advance (s : State) (r : Reg) : s.advance.reg r = s.reg r := rfl
@[simp] theorem State.reg_sampleIrq (s : State) (r : Reg) : s.sampleIrq.reg r = s.reg r := rfl
@[simp] theorem State.reg_driveOutput (v : Word) (s : State) (r : Reg) :
    (driveOutput v s).reg r = s.reg r := rfl
@[simp] theorem State.reg_releaseOutput (s : State) (r : Reg) : (releaseOutput s).reg r = s.reg r := rfl

/-- The link is the only register a link write changes. -/
theorem State.reg_link (s : State) (q : Reg) :
    s.link.reg q = if q = .r2 then s.pc + 1 else s.reg q :=
  s.reg_setReg .r2 q s.npc

@[simp] theorem State.word_setReg (s : State) (r : Reg) (v a : Word) :
    (s.setReg r v).word a = s.word a := rfl
@[simp] theorem State.word_jumpTo (s : State) (t a : Word) : (s.jumpTo t).word a = s.word a := rfl
@[simp] theorem State.word_advance (s : State) (a : Word) : s.advance.word a = s.word a := rfl
@[simp] theorem State.word_sampleIrq (s : State) (a : Word) : s.sampleIrq.word a = s.word a := rfl
@[simp] theorem State.word_link (s : State) (a : Word) : s.link.word a = s.word a := rfl

end Sys2Proof.Machine
end

