-- ==== Sys2Proof/Laws/Exec.lean ====
section
/-! SUPPORT. Everything an instruction can do when it answers a next state. -/

namespace Sys2Proof.Machine

/-- The shapes of a next state. -/
inductive Effect (i : Instr) (s : State) : State → Prop where
  /-- A register result and the next instruction. -/
  | result (r : Reg) (v : Word) (h : r ∈ writtenRegs i) : Effect i s (s.setReg r v).advance
  /-- A branch or a jump. -/
  | goto (p : Word) : Effect i s (s.jumpTo p)
  /-- A jump with link. -/
  | call (p : Word) (h : Reg.r2 ∈ writtenRegs i) : Effect i s (s.link.jumpTo p)
  | store (rt rs : Reg) (offset : BitVec 8) (m : Memory) (h : i = .swd rt rs offset) :
      Effect i s (State.advance { s with mem := m })
  | inputWait (rd : Reg) (h : i = .rwd rd) (hs : s.inputOffered = none) :
      Effect i s { s with portWait := .input rd, inEvents := s.inEvents.tail }
  | inputDone (rd : Reg) (v : Word) (es : List (Option Word)) (h : i = .rwd rd)
      (hs : s.inEvents = some v :: es) :
      Effect i s (State.setReg { s with portWait := .idle, inEvents := es } rd v).advance
  | outputWait (rs : Reg) (es : List Bool) (h : i = .wwd rs) :
      Effect i s { driveOutput (s.reg rs) s with portWait := .output, ackEvents := es }
  | outputDone (rs : Reg) (es : List Bool) (h : i = .wwd rs) :
      Effect i s (releaseOutput { driveOutput (s.reg rs) s with ackEvents := es }).advance
  | halt (h : i = .hlt) : Effect i s { s with halted := true }
  | enable (h : i = .eni) : Effect i s (State.advance { s with ie := true })
  | disable (h : i = .dsi) : Effect i s (State.advance { s with ie := false })

/-- Every next state of an instruction has one of these shapes. -/
theorem exec_effect {i : Instr} {s t : State} (h : exec i s = .next t) : Effect i s t := by
  cases i
  case rwd rd =>
    rcases pollInput_cases rd s with ⟨h1, e⟩ | ⟨es, h1, e⟩ | ⟨v, es, h1, e⟩ <;>
      (simp only [exec, execRwd, e] at h; injection h with h; subst h)
    · have := Effect.inputWait (i := .rwd rd) (s := s) rd rfl (by simp [State.inputOffered, h1])
      rwa [show s.inEvents.tail = s.inEvents by rw [h1]; rfl] at this
    · simpa [h1] using
        Effect.inputWait (i := .rwd rd) (s := s) rd rfl (by simp [State.inputOffered, h1])
    · exact .inputDone rd v es rfl h1
  case wwd rs =>
    rcases pollOutput_cases (driveOutput (s.reg rs) s) with ⟨h1, e⟩ | ⟨es, h1, e⟩ | ⟨es, h1, e⟩ <;>
      (simp only [exec, execWwd, e] at h; injection h with h; subst h)
    · exact .outputWait rs s.ackEvents rfl
    · exact .outputWait rs es rfl
    · exact .outputDone rs es rfl
  case swd rt rs offset =>
    simp only [exec, execSwd_eq] at h
    injection h with h
    subst h
    exact .store rt rs offset _ rfl
  case lwd rt rs offset =>
    simp only [exec, execLwd_eq] at h
    split at h
    · injection h with h
      subst h
      exact .result _ _ (List.mem_singleton.mpr rfl)
    · cases h
  case jrl rs =>
    simp only [exec, execJrl] at h
    split at h
    · unfold jumpAndLink at h
      split at h <;> (injection h with h; subst h; exact .call _ (List.mem_singleton.mpr rfl))
    · rw [jumpAndLink_reading ‹_›] at h
      injection h with h
      subst h
      exact .call _ (List.mem_singleton.mpr rfl)
  case hlt => injection h with h; subst h; exact .halt rfl
  case eni => injection h with h; subst h; exact .enable rfl
  case dsi => injection h with h; subst h; exact .disable rfl
  case jal target => injection h with h; subst h; exact .call _ (List.mem_singleton.mpr rfl)
  all_goals
    simp only [exec] at h
    injection h with h
    subst h
    first
      | exact .goto _
      | exact .result _ _ (List.mem_singleton.mpr rfl)

end Sys2Proof.Machine
end

