-- ==== Sys2Proof/Laws/Operands.lean ====
section
/-! SUPPORT. The operand forms and conditions, each in terms of the word operations that lemmas exist
for. -/

namespace Sys2Proof.Machine

theorem zext16_eq_setWidth (v : BitVec 8) : zext16 v = v.setWidth 16 := by
  revert v; decide

theorem highByte_eq_shift (v : BitVec 8) : highByte v = v.setWidth 16 <<< 8 := by
  revert v; decide

theorem shiftLeftOne_eq_shift (v : Word) : shiftLeftOne v = v <<< 1 := by
  apply BitVec.eq_of_toNat_eq
  have := v.isLt
  simp only [shiftLeftOne, BitVec.toNat_append, BitVec.extractLsb'_toNat, BitVec.toNat_shiftLeft,
    BitVec.toNat_ofNat, Nat.shiftLeft_eq, Nat.shiftRight_zero, Nat.zero_mod, Nat.or_zero]
  omega

theorem shiftRightOne_eq_shift (v : Word) : shiftRightOne v = v.sshiftRight 1 := by
  apply BitVec.eq_of_getLsbD_eq
  intro i hi
  rw [shiftRightOne, BitVec.getLsbD_sshiftRight, BitVec.getLsbD_append]
  interval_cases i <;> simp [BitVec.msb_eq_getLsbD_last]

theorem subtract_eq_sub (a b : Word) : subtract a b = a - b := by
  unfold subtract
  rw [BitVec.add_assoc]
  exact (congrArg (a + ·) (BitVec.neg_eq_not_add b).symm).trans (BitVec.sub_eq_add_neg a b).symm

theorem negate_eq_neg (a : Word) : negate a = -a :=
  (BitVec.neg_eq_not_add a).symm

/-- A target keeps the region and replaces the low twelve bits. -/
theorem jumpTarget_toNat (region : JumpRegion) (pc : Word) (target : BitVec 12) :
    (jumpTarget region pc target).toNat =
      (regionAddress region pc).toNat / 4096 * 4096 + target.toNat := by
  have h1 := target.isLt
  have h2 := (regionAddress region pc).isLt
  rw [jumpTarget, BitVec.toNat_append, ← Nat.shiftLeft_add_eq_or_of_lt h1, BitVec.extractLsb'_toNat,
    Nat.shiftLeft_eq, Nat.shiftRight_eq_div_pow]
  omega

/-- A word is greater than zero exactly when its sign bit is clear and it is not zero (rule R143). -/
theorem greaterThanZero_iff (a : Word) : greaterThanZero a = true ↔ 0 < a.toNat ∧ a.toNat < 32768 := by
  have h := BitVec.toInt_eq_toNat_cond a
  have := a.isLt
  simp only [greaterThanZero, decide_eq_true_eq]
  split at h <;> omega

/-- A word is less than zero exactly when its sign bit is set (rule R144). -/
theorem lessThanZero_iff (a : Word) : lessThanZero a = true ↔ 32768 ≤ a.toNat := by
  have h := BitVec.toInt_eq_toNat_cond a
  have := a.isLt
  simp only [lessThanZero, decide_eq_true_eq]
  split at h <;> omega

end Sys2Proof.Machine
end

