-- ==== Sys2Proof/Laws/PerInstr.lean ====
section
/-! SUPPORT. Laws of every instruction as syntax, one lemma per constructor. -/

namespace Sys2Proof.Laws

/-- The word of an instruction has, under the mask of its opcode-table row, the row's pattern: the
encoder, written from rule R69, and the table agree on the bits that select the instruction. -/
def TableRow.Statement (i : Instr) : Prop := encode i &&& i.mnemonic.tableMask = i.mnemonic.tableMatch

theorem TableRow.add (rd rs rt : Reg) : TableRow.Statement (.add rd rs rt) :=
  encodeR_masked _ _ _ _

theorem TableRow.sub (rd rs rt : Reg) : TableRow.Statement (.sub rd rs rt) :=
  encodeR_masked _ _ _ _

theorem TableRow.and (rd rs rt : Reg) : TableRow.Statement (.and rd rs rt) :=
  encodeR_masked _ _ _ _

theorem TableRow.orr (rd rs rt : Reg) : TableRow.Statement (.orr rd rs rt) :=
  encodeR_masked _ _ _ _

theorem TableRow.not (rd rs : Reg) : TableRow.Statement (.not rd rs) :=
  encodeR_masked _ _ _ _

theorem TableRow.tcp (rd rs : Reg) : TableRow.Statement (.tcp rd rs) :=
  encodeR_masked _ _ _ _

theorem TableRow.shl (rd rs : Reg) : TableRow.Statement (.shl rd rs) :=
  encodeR_masked _ _ _ _

theorem TableRow.shr (rd rs : Reg) : TableRow.Statement (.shr rd rs) :=
  encodeR_masked _ _ _ _

theorem TableRow.adi (rt rs : Reg) (imm : BitVec 8) : TableRow.Statement (.adi rt rs imm) :=
  encodeI_masked _ _ _ _

theorem TableRow.ori (rt rs : Reg) (imm : BitVec 8) : TableRow.Statement (.ori rt rs imm) :=
  encodeI_masked _ _ _ _

theorem TableRow.lhi (rt : Reg) (imm : BitVec 8) : TableRow.Statement (.lhi rt imm) :=
  encodeI_masked _ _ _ _

theorem TableRow.rwd (rd : Reg) : TableRow.Statement (.rwd rd) :=
  encodeR_masked _ _ _ _

theorem TableRow.wwd (rs : Reg) : TableRow.Statement (.wwd rs) :=
  encodeR_masked _ _ _ _

theorem TableRow.lwd (rt rs : Reg) (offset : BitVec 8) : TableRow.Statement (.lwd rt rs offset) :=
  encodeI_masked _ _ _ _

theorem TableRow.swd (rt rs : Reg) (offset : BitVec 8) : TableRow.Statement (.swd rt rs offset) :=
  encodeI_masked _ _ _ _

theorem TableRow.bne (rs rt : Reg) (offset : BitVec 8) : TableRow.Statement (.bne rs rt offset) :=
  encodeI_masked _ _ _ _

theorem TableRow.beq (rs rt : Reg) (offset : BitVec 8) : TableRow.Statement (.beq rs rt offset) :=
  encodeI_masked _ _ _ _

theorem TableRow.bgz (rs : Reg) (offset : BitVec 8) : TableRow.Statement (.bgz rs offset) :=
  encodeI_masked _ _ _ _

theorem TableRow.blz (rs : Reg) (offset : BitVec 8) : TableRow.Statement (.blz rs offset) :=
  encodeI_masked _ _ _ _

theorem TableRow.jmp (target : BitVec 12) : TableRow.Statement (.jmp target) :=
  encodeJ_masked _ _

theorem TableRow.jal (target : BitVec 12) : TableRow.Statement (.jal target) :=
  encodeJ_masked _ _

theorem TableRow.jpr (rs : Reg) : TableRow.Statement (.jpr rs) :=
  encodeR_masked _ _ _ _

theorem TableRow.jrl (rs : Reg) : TableRow.Statement (.jrl rs) :=
  encodeR_masked _ _ _ _

theorem TableRow.hlt : TableRow.Statement (.hlt) :=
  encodeR_masked _ _ _ _

theorem TableRow.eni : TableRow.Statement (.eni) :=
  encodeR_masked _ _ _ _

theorem TableRow.dsi : TableRow.Statement (.dsi) :=
  encodeR_masked _ _ _ _

end Sys2Proof.Laws
end

