-- ==== Sys2Proof/Laws/Run.lean ====
section
/-! SUPPORT. The induction over runs, packaged once. -/

namespace Sys2Proof.Machine

/-- What holds of a state and is kept by every step holds of every state that steps reach. -/
theorem Reaches.keeps {P : State → Prop} {s t : State} (h : Reaches s t) (hs : P s)
    (hstep : ∀ u v, P u → step u = .next v → P v) : P t := by
  induction h with
  | refl => exact hs
  | tail _ hv ih => exact hstep _ _ ih hv

end Sys2Proof.Machine
end

