-- ==== Sys2Proof/Laws/Step.lean ====
section
/-! SUPPORT. What fetching can answer, and everything a step can do. -/

namespace Sys2Proof.Machine

/-- Fetching answers an instruction exactly when the word at the pc decodes to it. -/
theorem fetchInstr_eq_ok {s : State} {i : Instr} :
    fetchInstr s = .ok i ↔ ∃ w, s.word s.pc = some w ∧ decode w = .ok i := by
  unfold fetchInstr
  rw [memRead_populated]
  show _ ↔ ∃ w, Memory.lookup s.mem s.pc.toNat = some w ∧ _
  cases Memory.lookup s.mem s.pc.toNat with
  | none => simp
  | some w => cases hd : decode w <;> simp [hd]

/-- Fetching looks at the pc and at memory only. -/
theorem fetchInstr_congr {s t : State} (hp : t.pc = s.pc) (hm : t.mem = s.mem) :
    fetchInstr t = fetchInstr s := by
  unfold fetchInstr
  rw [hp, hm]

/-- Everything a step that answers a next state can have done. -/
theorem step_cases {s t : State} (h : step s = .next t) :
    (s.halted = true ∧ t = s) ∨
    (s.halted = false ∧ s.interruptTaken = false ∧
      ((∃ rd, s.portWait = .input rd ∧ pollInput rd s.sampleIrq = .next t) ∨
        (s.portWait = .output ∧ pollOutput s.sampleIrq = .next t) ∨
        (s.portWait = .idle ∧ ∃ i, fetchInstr s = .ok i ∧ exec i s.sampleIrq = .next t))) := by
  unfold step at h
  cases hh : s.halted with
  | true => rw [hh] at h; exact .inl ⟨rfl, by simpa using h.symm⟩
  | false =>
      cases hi : s.interruptTaken with
      | true => rw [hh, hi] at h; cases h
      | false =>
          rw [hh, hi] at h
          refine .inr ⟨rfl, rfl, ?_⟩
          replace h : cycle s.sampleIrq = .next t := h
          unfold cycle at h
          rw [show s.sampleIrq.portWait = s.portWait from rfl,
            fetchInstr_congr (t := s.sampleIrq) (s := s) rfl rfl] at h
          cases hw : s.portWait with
          | input rd => rw [hw] at h; exact .inl ⟨rd, rfl, h⟩
          | output => rw [hw] at h; exact .inr (.inl ⟨rfl, h⟩)
          | idle =>
              rw [hw] at h
              cases hf : fetchInstr s with
              | error f => rw [hf] at h; cases h
              | ok i => rw [hf] at h; exact .inr (.inr ⟨rfl, i, rfl, h⟩)

end Sys2Proof.Machine
end

