-- ==== Sys2Proof/Tests/Slice0.lean ====
section
/-! SUPPORT. Tests of single words and single steps, and witnesses for the hypotheses of the statements.
Expected values are those of 95_test_vectors.md (E, V) or worked by hand from the rule named. -/

namespace Sys2Proof.Tests

open Sys2Proof.Machine

/-! ### Helpers -/

/-- A state with the given registers and pc, and nothing else set. -/
def machineAt (pc r0 r1 r2 r3 : Word) : State := { State.reset with pc := pc, regs := ⟨r0, r1, r2, r3⟩ }

/-- What one step from the state, with the word placed at the pc, shows under `f`. -/
def after {α : Type} (w : Nat) (s : State) (f : State → α) : Option α :=
  match step (s.withFetchWord 16 w) with
  | .next t => some (f t)
  | _ => none

/-- The registers and the pc. -/
def view (s : State) : Word × Word × Word × Word × Word :=
  (s.reg .r0, s.reg .r1, s.reg .r2, s.reg .r3, s.pc)

/-- The fault of one step from the state, with the word placed at the pc. -/
def faultOf (w : Nat) (s : State) : Option Fault :=
  match step (s.withFetchWord 16 w) with
  | .fault f => some f
  | _ => none

/-! ### Decoding: one word per instruction, its bits written out from the encodings of rules R53 to R55 -/

theorem test_decode_add : decode 0b1111_10_00_01_000000 = .ok (.add .r1 .r2 .r0) := by decide
theorem test_decode_sub : decode 0b1111_01_10_00_000001 = .ok (.sub .r0 .r1 .r2) := by decide
theorem test_decode_and : decode 0b1111_01_10_11_000010 = .ok (.and .r3 .r1 .r2) := by decide
theorem test_decode_orr : decode 0b1111_10_01_01_000011 = .ok (.orr .r1 .r2 .r1) := by decide
theorem test_decode_not : decode 0b1111_01_00_00_000100 = .ok (.not .r0 .r1) := by decide
theorem test_decode_tcp : decode 0b1111_10_00_00_000101 = .ok (.tcp .r0 .r2) := by decide
theorem test_decode_shl : decode 0b1111_01_00_00_000110 = .ok (.shl .r0 .r1) := by decide
theorem test_decode_shr : decode 0b1111_01_00_10_000111 = .ok (.shr .r2 .r1) := by decide
theorem test_decode_adi : decode 0b0100_01_00_11101111 = .ok (.adi .r0 .r1 0xEF) := by decide
theorem test_decode_ori : decode 0b0101_11_00_11111111 = .ok (.ori .r0 .r3 0xFF) := by decide
theorem test_decode_lhi : decode 0b0110_00_01_00010010 = .ok (.lhi .r1 0x12) := by decide
theorem test_decode_rwd : decode 0b1111_00_00_10_011011 = .ok (.rwd .r2) := by decide
theorem test_decode_wwd : decode 0b1111_10_00_00_011100 = .ok (.wwd .r2) := by decide
theorem test_decode_lwd : decode 0b0111_11_00_11111100 = .ok (.lwd .r0 .r3 0xFC) := by decide
theorem test_decode_swd : decode 0b1000_11_01_11111110 = .ok (.swd .r1 .r3 0xFE) := by decide
theorem test_decode_bne : decode 0b0000_00_10_00000110 = .ok (.bne .r0 .r2 6) := by decide
theorem test_decode_beq : decode 0b0001_10_00_11011100 = .ok (.beq .r2 .r0 0xDC) := by decide
theorem test_decode_bgz : decode 0b0010_10_00_11101111 = .ok (.bgz .r2 0xEF) := by decide
theorem test_decode_blz : decode 0b0011_01_00_00000011 = .ok (.blz .r1 3) := by decide
theorem test_decode_jmp : decode 0b1001_000100000000 = .ok (.jmp 0x100) := by decide
theorem test_decode_jal : decode 0b1010_010110110000 = .ok (.jal 0x5B0) := by decide
theorem test_decode_jpr : decode 0b1111_10_00_00_011001 = .ok (.jpr .r2) := by decide
theorem test_decode_jrl : decode 0b1111_11_00_00_011010 = .ok (.jrl .r3) := by decide
theorem test_decode_hlt : decode 0b1111_00_00_00_011101 = .ok (.hlt) := by decide
theorem test_decode_eni : decode 0b1111_00_00_00_011110 = .ok (.eni) := by decide
theorem test_decode_dsi : decode 0b1111_00_00_00_011111 = .ok (.dsi) := by decide

/-- Unused fields are ignored (V25, V42, V56, V131). -/
theorem test_decode_unused_fields :
    decode 0xF704 = .ok (.not .r0 .r1) ∧ decode 0x6D12 = .ok (.lhi .r1 0x12) ∧
      decode 0xFF9B = .ok (.rwd .r2) ∧ decode 0xFFDD = .ok .hlt := by decide

/-- Words that are no instruction (V140 to V143). -/
theorem test_decode_unassigned_opcode :
    decode 0xB000 = .error (.unassignedOpcode 0xB000) ∧ decode 0xC123 = .error (.unassignedOpcode 0xC123) ∧
      decode 0xD456 = .error (.unassignedOpcode 0xD456) ∧
      decode 0xEFFF = .error (.unassignedOpcode 0xEFFF) := by decide

/-- Words that are no instruction (V144 to V149). -/
theorem test_decode_unassigned_function :
    decode 0xF008 = .error (.unassignedFunction 0xF008) ∧
      decode 0xF018 = .error (.unassignedFunction 0xF018) ∧
      decode 0xF020 = .error (.unassignedFunction 0xF020) ∧
      decode 0xFFFF = .error (.unassignedFunction 0xFFFF) ∧
      decode 0xF03C = .error (.unassignedFunction 0xF03C) := by decide

/-- Encoding gives the words of section 2.9. -/
theorem test_encode :
    encode (.add .r1 .r2 .r0) = 0xF840 ∧ encode (.lhi .r1 0x12) = 0x6112 ∧
      encode (.beq .r2 .r0 0xDC) = 0x18DC ∧ encode (.jal 0x5B0) = 0xA5B0 := by decide

/-- The row interface of the opcode table. -/
theorem test_decodeTableWord :
    decodeTableWord 16 0xF019 = some (.jpr .r0) ∧ decodeTableWord 16 0xF03F = none := by decide

/-! ### The assembler: an ill-formed line for each check -/

/-- A register that does not exist (rule R11). -/
theorem test_wf_register : AsmLine.wellFormed 0 ⟨.NOT, [.reg 4, .reg 0]⟩ = false := by decide

/-- The source's `BGZ $3, 200` does not fit its field (E26). -/
theorem test_wf_branch_offset : AsmLine.wellFormed 0 ⟨.BGZ, [.reg 3, .num 200]⟩ = false := by decide

/-- A branch label one word out of reach: 0x0081 is at distance 128 from the word after 0x0000 (rule R65). -/
theorem test_wf_branch_label :
    AsmLine.wellFormed 0 ⟨.BEQ, [.reg 0, .reg 0, .label 0x0081]⟩ = false ∧
      AsmLine.wellFormed 0 ⟨.BEQ, [.reg 0, .reg 0, .label 0x0080]⟩ = true := by decide

/-- A signed immediate out of range (rule R67). -/
theorem test_wf_signed : AsmLine.wellFormed 0 ⟨.ADI, [.reg 0, .reg 1, .num (-129)]⟩ = false := by decide

/-- An unsigned immediate out of range (rule R67). -/
theorem test_wf_unsigned : AsmLine.wellFormed 0 ⟨.ORI, [.reg 0, .reg 1, .num 256]⟩ = false := by decide

/-- The source's `JMP 0xeeff` is not valid (E31). -/
theorem test_wf_target : AsmLine.wellFormed 0 ⟨.JMP, [.num 0xEEFF]⟩ = false := by decide

/-- A jump label outside the region (rule R66). -/
theorem test_wf_jump_label : AsmLine.wellFormed 0 ⟨.JAL, [.label 0x1000]⟩ = false := by decide

/-- A shape the format does not have: the source's leftover operand in `JMP 0x0100, -17` (C16). -/
theorem test_wf_shape : AsmLine.wellFormed 0 ⟨.JMP, [.num 0x100, .num (-17)]⟩ = false := by decide

/-- Lines of the source as text, comments included (E1, E12, E26, E30). -/
theorem test_assemble_text :
    assembleText [] 0 "ADD $1, $2, $0; $3 <- $0 + $1".toList = some 0xF840 ∧
      assembleText [] 0 "ADI $0, $1, -17;".toList = some 0x44EF ∧
      assembleText [] 0 "BGZ $3, 200;".toList = none ∧
      assembleText [] 0 "JMP 0x0100".toList = some 0x9100 := by decide

/-- A label: the branch of program P1 at 0x0005, with LOOP at 0x0003. -/
theorem test_assemble_label :
    assembleText [("LOOP".toList, 3)] 5 "BGZ $1, LOOP".toList = some 0x24FD := by decide

/-- The last six lines of program P1 from their address: a label defined, and used in a later line. -/
theorem test_assemble_program :
    assembleProgram 2
        "ADI $1, $1, 5\nLOOP: ADD $0, $0, $1\nADI $1, $1, -1\nBGZ $1, LOOP ; again\nWWD $0\nHLT".toList =
      some [0x4505, 0xF100, 0x45FF, 0x24FD, 0xF01C, 0xF01D] := by decide

/-- A label used before its definition: the lines 0x0004 to 0x0006 of program P3. -/
theorem test_assemble_forward :
    assembleProgram 4 "ABS: BLZ $0, NEG\nJPR $2\nNEG: TCP $0, $0".toList =
      some [0x3001, 0xF819, 0xF005] := by decide

/-- Two labels before one instruction are an error, and stand on two lines (assumption 27). -/
theorem test_assemble_two_labels :
    assembleProgram 0 "A: B: HLT".toList = none ∧
      assembleProgram 0 "A:\nB: JMP A\nJMP B".toList = some [0x9000, 0x9000] := by decide

/-- A label defined twice is an error (assumption 27). -/
theorem test_assemble_label_twice : assembleProgram 0 "A: HLT\nA: HLT".toList = none := by decide

/-! ### One step per instruction -/

/-- V2: both reads before the write, signed overflow wraps. -/
theorem test_add_doubles : 
    after 0xFA80 (machineAt 0x0100 0x0000 0x0000 0x4000 0x0000) view =
      some (0x0000, 0x0000, 0x8000, 0x0000, 0x0101) := by decide

/-- V27: the pc wraps. -/
theorem test_add_pc_wraps : 
    after 0xF700 (machineAt 0xFFFF 0x0000 0x0001 0x0000 0x0002) view =
      some (0x0003, 0x0001, 0x0000, 0x0002, 0x0000) := by decide

/-- V6: `rs` minus `rt`. -/
theorem test_sub_order : 
    after 0xF601 (machineAt 0x0100 0x0000 0x0005 0x0007 0x0000) view =
      some (0xFFFE, 0x0005, 0x0007, 0x0000, 0x0101) := by decide

/-- V9: 0 minus 0x8000 wraps. -/
theorem test_sub_min : 
    after 0xF601 (machineAt 0x0100 0x0001 0x0000 0x8000 0x0000) view =
      some (0x8000, 0x0000, 0x8000, 0x0000, 0x0101) := by decide

/-- V10. -/
theorem test_and : 
    after 0xF6C2 (machineAt 0x0100 0x0000 0xF0F0 0x3C3C 0x0000) view =
      some (0x0000, 0xF0F0, 0x3C3C, 0x3030, 0x0101) := by decide

/-- V12: OR, not subtraction. -/
theorem test_orr : 
    after 0xF943 (machineAt 0x0100 0x0000 0x00F0 0x0F00 0x0000) view =
      some (0x0000, 0x0FF0, 0x0F00, 0x0000, 0x0101) := by decide

/-- V14. -/
theorem test_not : 
    after 0xF404 (machineAt 0x0100 0x0000 0x00FF 0x0000 0x0000) view =
      some (0xFF00, 0x00FF, 0x0000, 0x0000, 0x0101) := by decide

/-- V17: the most negative number is its own negation. -/
theorem test_tcp_min : 
    after 0xF445 (machineAt 0x0100 0x0000 0x8000 0x0000 0x0000) view =
      some (0x0000, 0x8000, 0x0000, 0x0000, 0x0101) := by decide

/-- V16. -/
theorem test_tcp_one : 
    after 0xF805 (machineAt 0x0100 0x0000 0x0000 0x0001 0x0000) view =
      some (0xFFFF, 0x0000, 0x0001, 0x0000, 0x0101) := by decide

/-- V19: bit 15 lost, zero in bit 0. -/
theorem test_shl : 
    after 0xF406 (machineAt 0x0100 0x0000 0xC001 0x0000 0x0000) view =
      some (0x8002, 0xC001, 0x0000, 0x0000, 0x0101) := by decide

/-- V21: the sign bit is kept. -/
theorem test_shr_sign : 
    after 0xF487 (machineAt 0x0100 0x0000 0x8001 0x0000 0x0000) view =
      some (0x0000, 0x8001, 0xC000, 0x0000, 0x0101) := by decide

/-- V22. -/
theorem test_shr_positive : 
    after 0xF447 (machineAt 0x0100 0x0000 0x7FFF 0x0000 0x0000) view =
      some (0x0000, 0x3FFF, 0x0000, 0x0000, 0x0101) := by decide

/-- V32: a zero extension would give 0x00FF. -/
theorem test_adi_sign_extends : 
    after 0x44EF (machineAt 0x0100 0x0000 0x0010 0x0000 0x0000) view =
      some (0xFFFF, 0x0010, 0x0000, 0x0000, 0x0101) := by decide

/-- V33. -/
theorem test_adi_wraps : 
    after 0x457F (machineAt 0x0100 0x0000 0x7FFF 0x0000 0x0000) view =
      some (0x0000, 0x807E, 0x0000, 0x0000, 0x0101) := by decide

/-- V38: a sign extension would give 0xFFFF. -/
theorem test_ori_zero_extends : 
    after 0x5CFF (machineAt 0x0100 0x0000 0x0000 0x0000 0x8000) view =
      some (0x80FF, 0x0000, 0x0000, 0x8000, 0x0101) := by decide

/-- V40: the whole register is replaced. -/
theorem test_lhi : 
    after 0x6112 (machineAt 0x0100 0x0000 0xFFFF 0x0000 0x0000) view =
      some (0x0000, 0x1200, 0x0000, 0x0000, 0x0101) := by decide

/-- V51: the first of two words. -/
theorem test_rwd_completes : 
    after 0xF09B { machineAt 0x0100 0 0 0x1111 0 with inEvents := [some 0x0000, some 0x0001] }
      (fun t => (t.reg .r2, t.inWords, t.pc)) = some (0x0000, [0x0001], 0x0101) := by decide

/-- V52: register and pc keep their values, and the machine is not halted. -/
theorem test_rwd_waits : 
    after 0xF09B (machineAt 0x0100 0 0 0x1111 0)
      (fun t => (t.reg .r2, t.pc, t.halted, t.portWait)) = some (0x1111, 0x0100, false, .input .r2) := by decide

/-- V54: appended to the trace, acknowledged. -/
theorem test_wwd_completes : 
    after 0xF81C { machineAt 0x0100 0 0 0xFFFF 0 with out := [0x1234], ackEvents := [true] }
      (fun t => (t.out, t.pc, t.portWait)) = some ([0x1234, 0xFFFF], 0x0101, .idle) := by decide

/-- V57: the word is recorded at once and the pc stays. -/
theorem test_wwd_waits : 
    after 0xF01C (machineAt 0x0100 1 0 0 0)
      (fun t => (t.out, t.outPort, t.outSignal, t.pc)) = some ([0x0001], some 0x0001, true, 0x0100) := by decide

/-- V60: the base is read before it is overwritten. -/
theorem test_lwd_same_register : 
    after 0x7010 { machineAt 0x0100 0x0200 0 0 0 with mem := [(0x0210, 0xCAFE)] } view =
      some (0xCAFE, 0, 0, 0, 0x0101) := by decide

/-- V64: the address wraps downward. -/
theorem test_lwd_wraps : 
    after 0x79FF { machineAt 0x0100 0 0 0 0 with mem := [(0xFFFF, 0x2468)] } view =
      some (0, 0x2468, 0, 0, 0x0101) := by decide

/-- V68: a negative offset. -/
theorem test_swd : 
    after 0x8DFE (machineAt 0x0100 0 0xABCD 0 0x0302) (fun t => (t.word 0x0300, t.pc)) =
      some (some 0xABCD, 0x0101) := by decide

/-- V70: the address wraps upward. -/
theorem test_swd_wraps : 
    after 0x8C01 (machineAt 0x0100 0x9999 0 0 0xFFFF) (fun t => (t.word 0x0000, t.pc)) =
      some (some 0x9999, 0x0101) := by decide

/-- V80. -/
theorem test_bne_taken : 
    after 0x0206 (machineAt 0x0010 0x0001 0x0000 0x0002 0x0000) view =
      some (0x0001, 0x0000, 0x0002, 0x0000, 0x0017) := by decide

/-- V84: the target wraps below 0. -/
theorem test_bne_back : 
    after 0x0180 (machineAt 0x0010 0x0000 0x0001 0x0000 0x0000) view =
      some (0x0000, 0x0001, 0x0000, 0x0000, 0xFF91) := by decide

/-- V89. -/
theorem test_beq_taken : 
    after 0x18DC (machineAt 0x0040 0x0000 0x0000 0x0000 0x0000) view =
      some (0x0000, 0x0000, 0x0000, 0x0000, 0x001D) := by decide

/-- V92: all sixteen bits are compared. -/
theorem test_beq_not_taken : 
    after 0x1101 (machineAt 0x0010 0x8000 0x0000 0x0000 0x0000) view =
      some (0x8000, 0x0000, 0x0000, 0x0000, 0x0011) := by decide

/-- V97: the largest positive number. -/
theorem test_bgz_taken : 
    after 0x28EF (machineAt 0x0030 0x0000 0x0000 0x7FFF 0x0000) view =
      some (0x0000, 0x0000, 0x7FFF, 0x0000, 0x0020) := by decide

/-- V94: zero is not greater than zero. -/
theorem test_bgz_zero : 
    after 0x28EF (machineAt 0x0030 0x0000 0x0000 0x0000 0x0000) view =
      some (0x0000, 0x0000, 0x0000, 0x0000, 0x0031) := by decide

/-- V101: the most negative number. -/
theorem test_blz_taken : 
    after 0x3403 (machineAt 0x0008 0x0000 0x8000 0x0000 0x0000) view =
      some (0x0000, 0x8000, 0x0000, 0x0000, 0x000C) := by decide

/-- V105. -/
theorem test_blz_positive : 
    after 0x3403 (machineAt 0x0008 0x0000 0x7FFF 0x0000 0x0000) view =
      some (0x0000, 0x7FFF, 0x0000, 0x0000, 0x0009) := by decide

/-- V110: the source's own numbers. -/
theorem test_jmp : 
    after 0x9100 (machineAt 0xC68F 0x0000 0x0000 0x0000 0x0000) view =
      some (0x0000, 0x0000, 0x0000, 0x0000, 0xC100) := by decide

/-- V112: the region is that of the next instruction. -/
theorem test_jmp_region_end : 
    after 0x9000 (machineAt 0x0FFF 0x0000 0x0000 0x0000 0x0000) view =
      some (0x0000, 0x0000, 0x0000, 0x0000, 0x1000) := by decide

/-- V116. -/
theorem test_jal : 
    after 0xA5B0 (machineAt 0x91AE 0x0000 0x0000 0x7777 0x0000) view =
      some (0x0000, 0x0000, 0x91AF, 0x0000, 0x95B0) := by decide

/-- V118. -/
theorem test_jal_link_wraps : 
    after 0xA020 (machineAt 0xFFFF 0x0000 0x0000 0x0005 0x0000) view =
      some (0x0000, 0x0000, 0x0000, 0x0000, 0x0020) := by decide

/-- V121: all sixteen bits are used. -/
theorem test_jpr : 
    after 0xF019 (machineAt 0x0100 0xFFFF 0x0000 0x0000 0x0000) view =
      some (0xFFFF, 0x0000, 0x0000, 0x0000, 0xFFFF) := by decide

/-- V124. -/
theorem test_jrl : 
    after 0xFC1A (machineAt 0x0200 0x0000 0x0000 0x0000 0x8000) view =
      some (0x0000, 0x0000, 0x0201, 0x8000, 0x8000) := by decide

/-- V127 and V128: the two readings of `JRL $2`. -/
theorem test_jrl_self_readings : 
    (match jumpAndLink .readFirst .r2 (machineAt 0x0200 0 0 0x0300 0),
        jumpAndLink .writeFirst .r2 (machineAt 0x0200 0 0 0x0300 0) with
      | .next t, .next u => some (t.reg .r2, t.pc, u.reg .r2, u.pc)
      | _, _ => none) = some (0x0201, 0x0300, 0x0201, 0x0201) := by decide

/-- V112: the other value of JUMP_REGION. -/
theorem test_jump_region_self : jumpTarget .self 0x0FFF 0x000 = 0x0000 := by decide

/-- V130: halted, and nothing else seen. -/
theorem test_hlt : 
    after 0xF01D (machineAt 0x0005 1 2 3 4)
      (fun t => (t.halted, t.reg .r0, t.reg .r3, t.ie, t.out)) = some (true, 1, 4, false, []) := by decide

/-- V132. -/
theorem test_eni : 
    after 0xF01E (machineAt 0x0003 0 0 0 0) (fun t => (t.ie, t.pc)) = some (true, 0x0004) := by decide

/-- V134. -/
theorem test_dsi : 
    after 0xF01F { machineAt 0x0007 0 0 0 0 with ie := true } (fun t => (t.ie, t.pc)) =
      some (false, 0x0008) := by decide

/-! ### Stops and steps without an instruction -/

/-- V148: a word that is no instruction. -/
theorem test_illegal_word :
    faultOf 0xFFFF (machineAt 0x0100 0 0 0 0) = some (.illegalInstruction 0xFFFF) := by decide

/-- A load of a word that was never loaded nor stored (rule R171). -/
theorem test_uninitialised_load :
    faultOf 0x7010 (machineAt 0x0100 0x0200 0 0 0) = some (.uninitialisedMemory 0x0210) := by decide

/-- V72: an address at or beyond MEM_WORDS = 0x8000. -/
theorem test_unpopulated :
    (match memRead 0x8000 0x9000 [] with
      | .error f => some f
      | .ok _ => none) = some (.unpopulatedAccess 0x9000) := by decide

/-- Reset with nothing loaded: the first fetch finds no word (rule R24). -/
theorem test_reset_fetch :
    (match step State.reset with
      | .fault f => some f
      | _ => none) = some (.uninitialisedMemory 0x0000) := by decide

/-- V136: the final state is stable. -/
theorem test_halted_step :
    (match step { machineAt 0x0005 1 2 3 4 with halted := true } with
      | .next t => some t
      | _ => none) = some { machineAt 0x0005 1 2 3 4 with halted := true } := by decide

/-- V137: an interrupt is taken, and INTERRUPT_ENTRY has no value. -/
theorem test_interrupt :
    (match step { machineAt 0x0100 0 0 0 0 with ie := true, irqEvents := [true] } with
      | .refused r => some r
      | _ => none) = some .interruptEntryOpen := by decide

/-- P1's first two words, loaded: the first step from reset runs the first of them (rule R191). -/
theorem test_loaded_program :
    (match step (State.reset.load 0 [0x6012, 0xF01D]) with
      | .next t => some (t.reg .r0, t.pc)
      | _ => none) = some (0x1200, 0x0001) := by decide

/-- Writing keeps the canonical form, in whatever order the words come. -/
theorem test_memory_order :
    Memory.insert (Memory.insert (Memory.insert [] 7 1) 3 2) 7 5 = [(3, 2), (7, 5)] := by decide

/-! ### Witnesses: states and operands that meet the hypotheses of a statement, all together -/

/-- A machine about to execute the word, not halted, nothing waiting, no interrupt. -/
def ready (w : Word) : State := (machineAt 0x0100 1 2 3 4).readyToRun w

/-- A machine in which an RWD to `$2` waits. -/
def waitingIn (events : List (Option Word)) : State :=
  { ready 0xF09B with portWait := .input .r2, inEvents := events }

/-- A machine in which a WWD of `$0` waits. -/
def waitingOut (events : List Bool) : State :=
  { ready 0xF01C with
    portWait := .output, outPort := some 1, outSignal := true, out := [1], ackEvents := events }

theorem fetch_ready (w : Word) (i : Instr) (h : decode w = .ok i) : fetchInstr (ready w) = .ok i :=
  fetchInstr_eq_ok.mpr ⟨w, by simp [ready, State.readyToRun, State.word], h⟩

theorem ready_inv (w : Word) : MachineInv (ready w) where
  memory := State.readyToRun_wf (machineAt 0x0100 1 2 3 4) w (by decide)
  haltedIdle := fun _ => rfl
  inputAtRwd := fun _ h => PortWait.noConfusion h
  outputAtWwd := fun h => PortWait.noConfusion h
  outputDriven := fun h => PortWait.noConfusion h

theorem waitingIn_inv (events : List (Option Word)) : MachineInv (waitingIn events) where
  memory := (ready_inv 0xF09B).memory
  haltedIdle := fun h => Bool.noConfusion h
  inputAtRwd := fun rd h => by
    cases h
    exact fetch_ready 0xF09B (.rwd .r2) (by decide)
  outputAtWwd := fun h => PortWait.noConfusion h
  outputDriven := fun h => PortWait.noConfusion h

theorem waitingOut_inv (events : List Bool) : MachineInv (waitingOut events) where
  memory := (ready_inv 0xF01C).memory
  haltedIdle := fun h => Bool.noConfusion h
  inputAtRwd := fun _ h => PortWait.noConfusion h
  outputAtWwd := fun _ => ⟨.r0, fetch_ready 0xF01C (.wwd .r0) (by decide)⟩
  outputDriven := fun _ => ⟨rfl, rfl, List.cons_ne_nil _ _⟩

theorem witness_ResetInvariant : Memory.wf [(0, 0x6000), (1, 0xF01D), (0xFFFF, 0)] := by decide

/-- Four kinds of state with the invariant and a next state: running, waiting on either port, halted. -/
theorem witness_StepKeepsInvariant :
    (MachineInv (ready 0xF840) ∧ ∃ t, step (ready 0xF840) = .next t) ∧
    (MachineInv (waitingIn [none, some 7]) ∧ ∃ t, step (waitingIn [none, some 7]) = .next t) ∧
    (MachineInv (waitingOut [false]) ∧ ∃ t, step (waitingOut [false]) = .next t) ∧
    (MachineInv { ready 0xF01D with halted := true } ∧
      ∃ t, step { ready 0xF01D with halted := true } = .next t) :=
  ⟨⟨ready_inv _, _, rfl⟩, ⟨waitingIn_inv _, _, rfl⟩, ⟨waitingOut_inv _, _, rfl⟩,
    ⟨{ ready_inv 0xF01D with
        haltedIdle := fun _ => rfl
        inputAtRwd := fun _ h => PortWait.noConfusion h
        outputAtWwd := fun h => PortWait.noConfusion h }, _, rfl⟩⟩

theorem witness_ReachedKeepsInvariant :
    MachineInv (ready 0xF840) ∧ ∃ t, step (ready 0xF840) = .next t ∧ Reaches (ready 0xF840) t :=
  ⟨ready_inv _, _, rfl, Reaches.tail Reaches.refl rfl⟩

theorem witness_EncodeDecode : decode 0xF704 = .ok (.not .r0 .r1) := by decide

theorem witness_UnusedFieldsIgnored : decode 0xF704 = .ok (.not .r0 .r1) ∧
    (0xF704 : Word) &&& ~~~unusedMask Config.layout (.not .r0 .r1) =
      0xF404 &&& ~~~unusedMask Config.layout (.not .r0 .r1) := by decide

/-- The label at the far end of the reach, on either side, and the next one after it. -/
theorem witness_BranchLabelReached :
    (-128 ≤ ((0xFF91 : Word) - (0x0010 + 1)).toInt ∧ ((0xFF91 : Word) - (0x0010 + 1)).toInt ≤ 127) ∧
    (-128 ≤ ((0x0090 : Word) - (0x0010 + 1)).toInt ∧ ((0x0090 : Word) - (0x0010 + 1)).toInt ≤ 127) ∧
    ((0xFF90 : Word) - (0x0010 + 1)).toInt < -128 ∧ 127 < ((0x0091 : Word) - (0x0010 + 1)).toInt := by
  decide

/-- At the end of a region: a label of the next region, and one of the jump's own. -/
theorem witness_JumpLabelReached :
    ((0x1000 : Word).extractLsb' 12 4 = ((0x0FFF : Word) + 1).extractLsb' 12 4) ∧
    ((0x0FFF : Word).extractLsb' 12 4 ≠ ((0x0FFF : Word) + 1).extractLsb' 12 4) := by decide

theorem witness_OutOfRangeRefused :
    ((-129 : Int) < -128 ∨ (127 : Int) < -129) ∧ ((128 : Int) < -128 ∨ (127 : Int) < 128) ∧
    ((-1 : Int) < 0 ∨ (255 : Int) < -1) ∧ ((256 : Int) < 0 ∨ (255 : Int) < 256) ∧
    ((4096 : Int) < 0 ∨ (4095 : Int) < 4096) := by decide

theorem witness_RwdCompletes :
    ({ ready 0xF09B with inEvents := [some 0xBEEF, none] } : State).inEvents = some 0xBEEF :: [none] :=
  rfl

/-- A device that passes over this step, and one that never signals. -/
theorem witness_RwdWaits :
    ({ ready 0xF09B with inEvents := [none, some 7] } : State).inputOffered = none ∧
    (ready 0xF09B).inputOffered = none := by decide

theorem witness_WwdCompletes :
    ({ ready 0xF01C with ackEvents := [true, false] } : State).ackEvents = true :: [false] := rfl

theorem witness_WwdWaits :
    ({ ready 0xF01C with ackEvents := [false] } : State).ackEvents.headD false = false ∧
    (ready 0xF01C).ackEvents.headD false = false := by decide

/-- One state for each clause. -/
theorem witness_WaitStates :
    ({ ready 0xF01D with halted := true } : State).halted = true ∧
    ((waitingIn [none]).halted = false ∧ (waitingIn [none]).interruptTaken = false ∧
      (waitingIn [none]).portWait = .input .r2 ∧ (waitingIn [none]).inputOffered = none) ∧
    ((waitingIn [some 7]).halted = false ∧ (waitingIn [some 7]).interruptTaken = false ∧
      (waitingIn [some 7]).portWait = .input .r2 ∧ (waitingIn [some 7]).inputOffered = some 7) ∧
    ((waitingOut []).halted = false ∧ (waitingOut []).interruptTaken = false ∧
      (waitingOut []).portWait = .output ∧ (waitingOut []).ackEvents.headD false = false) ∧
    ((waitingOut [true]).halted = false ∧ (waitingOut [true]).interruptTaken = false ∧
      (waitingOut [true]).portWait = .output ∧ (waitingOut [true]).ackEvents.headD false = true) := by
  decide

theorem witness_PortStreams : ∃ t, step (ready 0xF01C) = .next t ∧ t.out ≠ (ready 0xF01C).out :=
  ⟨_, rfl, by decide⟩

/-- A word read, an address beyond a memory of 0x8000 words for read and write, and the two stops and the success of fetch. -/
theorem witness_MemReadReturns :
    memRead 0x8000 0x7FFF [(0x7FFF, 5)] = .ok 5 ∧ (0x8000 : Nat) ≤ (0x8000 : Word).toNat ∧
    memRead Config.memWords (machineAt 0x0100 0 0 0 0).pc (machineAt 0x0100 0 0 0 0).mem =
      .error (.uninitialisedMemory 0x0100) ∧
    (memRead Config.memWords (ready 0xF01D).pc (ready 0xF01D).mem = .ok 0xF01D ∧
      decode 0xF01D = .ok .hlt) ∧
    memRead Config.memWords (effectiveAddress ((ready 0x7000).reg .r0) 0xFF)
      { ready 0x7000 with mem := [(0, 0xFFFF)] }.mem = .ok 0xFFFF :=
  ⟨rfl, by decide, rfl, ⟨rfl, by decide⟩, rfl⟩

theorem witness_MemWriteSets :
    (0xFFFF : Word).toNat < 65536 ∧ (∃ t, exec (.swd .r0 .r1 0) (ready 0x8400) = .next t) ∧
    ∃ t, exec (.add .r0 .r1 .r2) (ready 0xF600) = .next t ∧
      ∀ rt rs offset, Instr.add .r0 .r1 .r2 ≠ .swd rt rs offset :=
  ⟨by decide, ⟨_, rfl⟩, _, rfl, fun _ _ _ h => Instr.noConfusion h⟩

theorem witness_LwdResult :
    State.word { ready 0x7000 with mem := [(0xFFFF, 9)] }
      (effectiveAddress ((machineAt 0x0100 1 2 3 4).reg .r0) 0xFE) = some 9 := by decide

theorem witness_LwdStops :
    (ready 0x7000).word (effectiveAddress ((ready 0x7000).reg .r0) 0) = none := by decide

/-- Stores of the word of HLT into the very next instruction, and into one far away. -/
theorem witness_StoreSeenByFetch :
    (∃ t, exec (.swd .r0 .r1 1) (machineAt 0x0100 0xF01D 0x0100 0 0) = .next t) ∧
    (∃ t, exec (.swd .r0 .r1 0x80) (machineAt 0x0100 0xF01D 0x0000 0 0) = .next t) ∧
      decode ((machineAt 0x0100 0xF01D 0x0000 0 0).reg .r0) = .ok .hlt :=
  ⟨⟨_, rfl⟩, ⟨_, rfl⟩, by decide⟩

theorem witness_JrlResult : Reg.r0 ≠ .r2 ∧ Reg.r1 ≠ .r2 ∧ Reg.r3 ≠ .r2 := by decide

theorem witness_JrlSelfResult : Config.jrlSelfLink = .readFirst ∨ Config.jrlSelfLink = .writeFirst := by
  cases Config.jrlSelfLink
  · exact .inl rfl
  · exact .inr rfl

/-- The last address of a region at which the two values agree, and the one at which they do not. -/
theorem witness_RegionsAgree :
    (0x0FFE : Word).toNat % 4096 ≠ 4095 ∧ (0xFFFF : Word).toNat % 4096 = 4095 := by decide

theorem witness_CallReturns : Reg.r3 ≠ .r2 := by decide

/-- A branch taken, a jump, and a wait. -/
theorem witness_OthersStayNear :
    (∃ t, exec (.beq .r0 .r0 0x80) (ready 0x1080) = .next t ∧
      (∀ rs, Instr.beq .r0 .r0 0x80 ≠ .jpr rs ∧ Instr.beq .r0 .r0 0x80 ≠ .jrl rs) ∧
      Instr.beq .r0 .r0 0x80 ≠ .hlt) ∧
    (∃ t, exec (.jmp 0xFFF) (ready 0x9FFF) = .next t ∧
      (∀ rs, Instr.jmp 0xFFF ≠ .jpr rs ∧ Instr.jmp 0xFFF ≠ .jrl rs) ∧ Instr.jmp 0xFFF ≠ .hlt) ∧
    (∃ t, exec (.rwd .r0) (ready 0xF01B) = .next t ∧
      (∀ rs, Instr.rwd .r0 ≠ .jpr rs ∧ Instr.rwd .r0 ≠ .jrl rs) ∧ Instr.rwd .r0 ≠ .hlt) :=
  ⟨⟨_, rfl, fun _ => ⟨fun h => Instr.noConfusion h, fun h => Instr.noConfusion h⟩, by decide⟩,
    ⟨_, rfl, fun _ => ⟨fun h => Instr.noConfusion h, fun h => Instr.noConfusion h⟩, by decide⟩,
    ⟨_, rfl, fun _ => ⟨fun h => Instr.noConfusion h, fun h => Instr.noConfusion h⟩, by decide⟩⟩

theorem witness_HaltedState :
    (∃ t, step (ready 0xF01D) = .next t ∧ (ready 0xF01D).halted = false ∧ t.halted = true) ∧
    ({ ready 0xF01D with halted := true } : State).halted = true :=
  ⟨⟨_, rfl, rfl, rfl⟩, rfl⟩

theorem witness_StepRunsDecoded :
    (ready 0xF840).halted = false ∧ (ready 0xF840).interruptTaken = false ∧
    (ready 0xF840).portWait = .idle ∧ (ready 0xF840).word (ready 0xF840).pc = some 0xF840 ∧
    decode 0xF840 = .ok (.add .r1 .r2 .r0) := by decide

/-- One state for each stop. -/
theorem witness_FetchStops :
    ((machineAt 0x0100 0 0 0 0).halted = false ∧ (machineAt 0x0100 0 0 0 0).interruptTaken = false ∧
      (machineAt 0x0100 0 0 0 0).portWait = .idle ∧
      (machineAt 0x0100 0 0 0 0).word (machineAt 0x0100 0 0 0 0).pc = none) ∧
    ((ready 0xB000).halted = false ∧ (ready 0xB000).interruptTaken = false ∧
      (ready 0xB000).portWait = .idle ∧ (ready 0xB000).word (ready 0xB000).pc = some 0xB000 ∧
      decode 0xB000 = .error (.unassignedOpcode 0xB000)) := by decide

theorem witness_InterruptRefused :
    ({ ready 0xF840 with ie := true, irqEvents := [true] } : State).halted = false ∧
    ({ ready 0xF840 with ie := true, irqEvents := [true] } : State).ie = true ∧
    ({ ready 0xF840 with ie := true, irqEvents := [true] } : State).irqEvents = true :: [] :=
  ⟨rfl, rfl, rfl⟩

theorem witness_DisabledMeansDisabled :
    ({ ready 0xF840 with irqEvents := [true] } : State).ie = false ∧
    ({ ready 0xF840 with irqEvents := [true] } : State).halted = false := ⟨rfl, rfl⟩

theorem witness_OnlyEniEnables :
    ∃ t, step (ready 0xF01E) = .next t ∧ (ready 0xF01E).ie = false ∧ t.ie = true :=
  ⟨_, rfl, rfl, rfl⟩

theorem witness_OnlyLoadsStop :
    exec (.lwd .r0 .r0 0) (ready 0x7000) = .fault (.uninitialisedMemory 1) := rfl

/-- JAL meets the hypothesis of every clause but SWD's, and an SWD that one. -/
theorem witness_WritesAsListed :
    ∃ t, exec (.jal 0x123) (ready 0xA123) = .next t ∧ Reg.r0 ∉ writtenRegs (.jal 0x123) ∧
      (∀ rt rs offset, Instr.jal 0x123 ≠ .swd rt rs offset) ∧ Instr.jal 0x123 ≠ .eni ∧
      Instr.jal 0x123 ≠ .dsi ∧ Instr.jal 0x123 ≠ .hlt ∧
      ∀ r, Instr.jal 0x123 ≠ .rwd r ∧ Instr.jal 0x123 ≠ .wwd r :=
  ⟨_, rfl, by decide, fun _ _ _ h => Instr.noConfusion h, by decide, by decide, by decide,
    fun _ => ⟨fun h => Instr.noConfusion h, fun h => Instr.noConfusion h⟩⟩

theorem witness_WritesAsListed_store :
    (∃ t, exec (.swd .r0 .r1 0xFF) (ready 0x84FF) = .next t) ∧
      (0x0000 : Word) ≠ effectiveAddress ((ready 0x84FF).reg .r1) 0xFF :=
  ⟨⟨_, rfl⟩, by decide⟩

theorem witness_ReadsAsListed :
    (Reg.r2 ∉ readRegs (.jal 0x123) ∧ ∃ t, exec (.jal 0x123) (ready 0xA123) = .next t) ∧
    (Reg.r1 ∉ readRegs (.lwd .r0 .r0 0) ∧
      exec (.lwd .r0 .r0 0) (ready 0x7000) = .fault (.uninitialisedMemory 1)) :=
  ⟨⟨by decide, _, rfl⟩, ⟨by decide, rfl⟩⟩

theorem witness_LoadPlacesWords :
    ([0x6000, 0xF01D] : List Word).length ≤ 65536 ∧ 1 < ([0x6000, 0xF01D] : List Word).length := by
  decide

theorem witness_PlacedWordRuns :
    decode (BitVec.ofNat 16 0xF01C) = .ok (.wwd .r0) ∧ 0xF01C < 65536 := by decide

end Sys2Proof.Tests
end

/-! SUPPORT. What an instruction leaves as it was, field by field, each read off from the shapes of
its next state; and which steps can change `IE` or `halted`. -/

namespace Sys2Proof.Machine

/-! ### The frame of an instruction, for all instructions at once -/

section
variable {i : Instr} {s t : State} (h : exec i s = .next t)
include h

/-- A register not listed as written keeps its value. -/
theorem exec_reg_of_not_written {r : Reg} (hr : r ∉ writtenRegs i) : t.reg r = s.reg r := by
  cases exec_effect h
  case result q v hq => exact s.reg_setReg_other v fun e => hr (e ▸ hq)
  case call p hq => exact s.reg_setReg_other s.npc fun e => hr (e ▸ hq)
  case inputDone q v es e _ =>
    subst e
    exact State.reg_setReg_other _ v fun e => hr (e ▸ List.mem_singleton_self q)
  all_goals rfl

/-- Only SWD changes memory. -/
theorem exec_word_of_not_swd (hi : ∀ rt rs offset, i ≠ .swd rt rs offset) (a : Word) :
    t.word a = s.word a := by
  cases exec_effect h
  case store rt rs offset m e => exact absurd e (hi rt rs offset)
  all_goals rfl

/-- Only ENI and DSI change `IE`. -/
theorem exec_ie_of_not_eni_dsi (heni : i ≠ .eni) (hdsi : i ≠ .dsi) : t.ie = s.ie := by
  cases exec_effect h
  case enable e => exact absurd e heni
  case disable e => exact absurd e hdsi
  all_goals rfl

/-- Only HLT changes `halted`. -/
theorem exec_halted_of_not_hlt (hi : i ≠ .hlt) : t.halted = s.halted := by
  cases exec_effect h
  case halt e => exact absurd e hi
  all_goals rfl

/-- Only WWD changes the output trace and what the output port shows. -/
theorem exec_output_of_not_wwd (hi : ∀ rs, i ≠ .wwd rs) :
    t.out = s.out ∧ t.outPort = s.outPort ∧ t.outSignal = s.outSignal := by
  cases exec_effect h
  case outputWait rs es e => exact absurd e (hi rs)
  case outputDone rs es e => exact absurd e (hi rs)
  all_goals exact ⟨rfl, rfl, rfl⟩

/-- Only WWD spends an acknowledge. -/
theorem exec_ackEvents_of_not_wwd (hi : ∀ rs, i ≠ .wwd rs) : t.ackEvents = s.ackEvents := by
  cases exec_effect h
  case outputWait rs es e => exact absurd e (hi rs)
  case outputDone rs es e => exact absurd e (hi rs)
  all_goals rfl

/-- Only RWD spends an answer of the input device. -/
theorem exec_inEvents_of_not_rwd (hi : ∀ rd, i ≠ .rwd rd) : t.inEvents = s.inEvents := by
  cases exec_effect h
  case inputWait rd e _ => exact absurd e (hi rd)
  case inputDone rd v es e _ => exact absurd e (hi rd)
  all_goals rfl

/-- Only the port instructions begin or end a wait. -/
theorem exec_portWait_of_not_port (hi : ∀ r, i ≠ .rwd r ∧ i ≠ .wwd r) :
    t.portWait = s.portWait := by
  cases exec_effect h
  case inputWait rd e _ => exact absurd e (hi rd).1
  case inputDone rd v es e _ => exact absurd e (hi rd).1
  case outputWait rs es e => exact absurd e (hi rs).2
  case outputDone rs es e => exact absurd e (hi rs).2
  all_goals rfl

/-- No instruction spends the input `irq`: the step does. -/
theorem exec_irqEvents : t.irqEvents = s.irqEvents := by
  cases exec_effect h <;> rfl

end

/-- SWD leaves every word but the addressed one. -/
theorem exec_swd_word_other {rt rs : Reg} {offset : BitVec 8} {s t : State}
    (h : exec (.swd rt rs offset) s = .next t) {a : Word}
    (ha : a ≠ effectiveAddress (s.reg rs) offset) : t.word a = s.word a := by
  obtain rfl : State.advance _ = t := Host.Outcome.next.inj ((execSwd_eq rt rs offset s).symm.trans h)
  exact Memory.lookup_insert_other _ _ (mt BitVec.eq_of_toNat_eq ha)

/-- Only ENI raises `IE`: DSI, the other instruction that touches it, clears it. -/
theorem exec_eni_of_ie_raised {i : Instr} {s t : State} (h : exec i s = .next t)
    (hs : s.ie = false) (ht : t.ie = true) : i = .eni := by
  cases exec_effect h
  case enable e => exact e
  case disable => exact absurd ht Bool.false_ne_true
  all_goals exact absurd (hs.symm.trans ht) Bool.false_ne_true

/-- Only HLT sets `halted`. -/
theorem exec_hlt_of_halted_set {i : Instr} {s t : State} (h : exec i s = .next t)
    (hs : s.halted = false) (ht : t.halted = true) : i = .hlt := by
  cases exec_effect h
  case halt e => exact e
  all_goals exact absurd (hs.symm.trans ht) Bool.false_ne_true

/-! ### Steps that change `IE` or `halted` -/

/-- Polling the input device changes neither `IE` nor `halted`: a poll is what an RWD does. -/
theorem pollInput_flags {rd : Reg} {s t : State} (h : pollInput rd s = .next t) :
    t.ie = s.ie ∧ t.halted = s.halted := by
  have hexec : exec (.rwd rd) s = .next t := h
  exact ⟨exec_ie_of_not_eni_dsi hexec nofun nofun, exec_halted_of_not_hlt hexec nofun⟩

/-- Polling the output device changes neither `IE` nor `halted`. -/
theorem pollOutput_flags {s t : State} (h : pollOutput s = .next t) :
    t.ie = s.ie ∧ t.halted = s.halted := by
  obtain ⟨_, e⟩ | ⟨_, _, e⟩ | ⟨_, _, e⟩ := pollOutput_cases s <;>
    (cases e.symm.trans h; exact ⟨rfl, rfl⟩)

/-- A step that changes `IE` or `halted` runs the fetched instruction. -/
theorem step_runs_of_flags_changed {s t : State} (h : step s = .next t)
    (hflags : ¬(t.ie = s.ie ∧ t.halted = s.halted)) :
    ∃ i, fetchInstr s = .ok i ∧ exec i s.sampleIrq = .next t := by
  obtain ⟨_, rfl⟩ | ⟨_, _, ⟨rd, _, hpoll⟩ | ⟨_, hpoll⟩ | ⟨_, hrun⟩⟩ := step_cases h
  · exact absurd ⟨rfl, rfl⟩ hflags
  · exact absurd (pollInput_flags hpoll) hflags
  · exact absurd (pollOutput_flags hpoll) hflags
  · exact hrun

/-- A halted machine's step answers the same state. -/
theorem step_of_halted {s : State} (h : s.halted = true) : step s = .next s := if_pos h

end Sys2Proof.Machine

/-! SUPPORT. Where the pc can be after an instruction. -/

namespace Sys2Proof.Machine

/-- The addresses at which an instruction at `s.pc` can leave the pc. -/
inductive NextPc (i : Instr) (s : State) : Word → Prop where
  /-- A port instruction that waits, and HLT. -/
  | stay : NextPc i s s.pc
  | next : NextPc i s s.npc
  | branch (offset : BitVec 8) : NextPc i s (branchTarget s.npc offset)
  | region (target : BitVec 12) : NextPc i s (jumpTarget Config.jumpRegion s.pc target)
  /-- JPR and JRL: any address. -/
  | register (rs : Reg) (p : Word) (h : i = .jpr rs ∨ i = .jrl rs) : NextPc i s p

/-- A branch goes to its target or to the next instruction. -/
theorem branchIf_nextPc {i : Instr} {b : Bool} {offset : BitVec 8} {s t : State}
    (h : branchIf b offset s = .next t) : NextPc i s t.pc := by
  obtain rfl := branchIf_next.mp h
  cases b
  · exact .next
  · exact .branch offset

/-- Every instruction leaves the pc at one of these addresses. -/
theorem exec_nextPc {i : Instr} {s t : State} (h : exec i s = .next t) : NextPc i s t.pc := by
  cases i
  case bne | beq | bgz | blz => exact branchIf_nextPc h
  case jmp target | jal target => cases h; exact .region target
  case jpr rs => exact .register rs _ (.inl rfl)
  case jrl rs => exact .register rs _ (.inr rfl)
  case hlt => cases h; exact .stay
  case rwd rd =>
    obtain ⟨_, e⟩ | ⟨_, _, e⟩ | ⟨_, _, _, e⟩ := pollInput_cases rd s <;> cases e.symm.trans h
    · exact .stay
    · exact .stay
    · exact .next
  case wwd rs =>
    obtain ⟨_, e⟩ | ⟨_, _, e⟩ | ⟨_, _, e⟩ := pollOutput_cases (driveOutput (s.reg rs) s) <;>
      cases e.symm.trans h
    · exact .stay
    · exact .stay
    · exact .next
  case lwd rt rs offset =>
    rw [exec, execLwd_eq] at h
    split at h <;> cases h
    exact .next
  case swd rt rs offset => cases (execSwd_eq rt rs offset s).symm.trans h; exact .next
  all_goals cases h; exact .next

/-! ### Distances -/

/-- A branch's target lies the signed offset away from the next instruction (rule R140). -/
theorem branchTarget_toNat (npc : Word) (offset : BitVec 8) :
    ((branchTarget npc offset).toNat : Int) = (npc.toNat + offset.toInt) % 65536 := by
  have hoffset : (offset.signExtend 16).toInt = offset.toInt := BitVec.toInt_signExtend_of_le (by decide)
  have htoInt := BitVec.toInt_eq_toNat_cond (offset.signExtend 16)
  have hnpc := npc.isLt
  rw [branchTarget, sext16, BitVec.toNat_add]
  split at htoInt <;> omega

/-- A JMP or JAL goes to the region of the next instruction (rule R150, decision D12). -/
theorem jumpTarget_region (pc : Word) (target : BitVec 12) :
    (jumpTarget Config.jumpRegion pc target).toNat / 4096 = (pc + 1).toNat / 4096 := by
  have htarget := target.isLt
  rw [jumpTarget_toNat, show regionAddress Config.jumpRegion pc = pc + 1 from rfl]
  omega

theorem npc_toNat (s : State) : s.npc.toNat = (s.pc.toNat + 1) % 65536 := BitVec.toNat_add s.pc 1

end Sys2Proof.Machine

/-! SUPPORT. Running an instruction with another value in a register that it does not read. -/

namespace Sys2Proof.Machine

/-! ### Two writes to the register file -/

/-- The later of two writes to one register stands. -/
@[simp] theorem State.setReg_setReg_same (s : State) (r : Reg) (v w : Word) :
    (s.setReg r v).setReg r w = s.setReg r w := by
  cases r <;> rfl

/-- Writes to different registers commute. -/
theorem State.setReg_setReg_comm (s : State) (v w : Word) {r q : Reg} (h : q ≠ r) :
    (s.setReg r v).setReg q w = (s.setReg q w).setReg r v := by
  cases r <;> cases q <;> simp [State.setReg, Regs.set] at h ⊢

/-! ### Outcomes that agree but for one register -/

/-- `SameBut r v o o'`: `o'` is what becomes of the outcome `o` when register `r` held `v` before. It is
the same stop, or the same state but for `v` still in `r`, or, `r` being overwritten, the same state. -/
inductive SameBut (r : Reg) (v : Word) : Result → Result → Prop where
  | fault (f : Fault) : SameBut r v (.fault f) (.fault f)
  | kept (t : State) : SameBut r v (.next t) (.next (t.setReg r v))
  | overwritten (t : State) : SameBut r v (.next t) (.next t)

section
variable {r : Reg} {v : Word}

/-- The same write to any register, with the same pc after it. -/
theorem sameBut_setReg_jumpTo (q : Reg) (w p : Word) (s : State) :
    SameBut r v (.next ((s.setReg q w).jumpTo p)) (.next (((s.setReg r v).setReg q w).jumpTo p)) := by
  by_cases h : q = r
  · subst h
    rw [State.setReg_setReg_same]
    exact .overwritten _
  · rw [State.setReg_setReg_comm s v w h]
    exact .kept _

/-- The same register result. -/
theorem sameBut_writeResult (rd : Reg) (w : Word) (s : State) :
    SameBut r v (writeResult rd w s) (writeResult rd w (s.setReg r v)) :=
  sameBut_setReg_jumpTo rd w s.npc s

/-- A branch under the same condition. -/
theorem sameBut_branchIf (b : Bool) (offset : BitVec 8) (s : State) :
    SameBut r v (branchIf b offset s) (branchIf b offset (s.setReg r v)) :=
  .kept _

/-- A poll of the input device asks no register. -/
theorem sameBut_pollInput (rd : Reg) (s : State) :
    SameBut r v (pollInput rd s) (pollInput rd (s.setReg r v)) := by
  unfold pollInput
  rw [State.setReg_inEvents]
  rcases s.inEvents with _ | ⟨_ | w, es⟩
  · exact .kept _
  · exact .kept _
  · exact sameBut_writeResult rd w { s with portWait := .idle, inEvents := es }

/-- A poll of the output device asks no register. -/
theorem sameBut_pollOutput (s : State) : SameBut r v (pollOutput s) (pollOutput (s.setReg r v)) := by
  unfold pollOutput
  rw [State.setReg_ackEvents]
  rcases s.ackEvents with _ | ⟨_ | _, es⟩ <;> exact .kept _

/-- JRL asks its target register only, under both readings. -/
theorem sameBut_jumpAndLink {rs : Reg} (hr : rs ≠ r) (reading : JrlSelfLink) (s : State) :
    SameBut r v (jumpAndLink reading rs s) (jumpAndLink reading rs (s.setReg r v)) := by
  cases reading with
  | readFirst =>
      simp only [jumpAndLink, s.reg_setReg_other v hr]
      exact sameBut_setReg_jumpTo .r2 s.npc _ s
  | writeFirst =>
      simp only [jumpAndLink, State.reg_link, State.setReg_pc, s.reg_setReg_other v hr]
      exact sameBut_setReg_jumpTo .r2 s.npc _ s

/-- A load asks its base register only. -/
theorem sameBut_execLwd {rs : Reg} (hr : rs ≠ r) (rt : Reg) (offset : BitVec 8) (s : State) :
    SameBut r v (execLwd rt rs offset s) (execLwd rt rs offset (s.setReg r v)) := by
  rw [execLwd_eq, execLwd_eq, s.reg_setReg_other v hr, State.word_setReg]
  cases s.word (effectiveAddress (s.reg rs) offset) with
  | none => exact .fault _
  | some w => exact sameBut_writeResult rt w s

/-- An instruction does the same, but for the register, whatever a register it does not list as read
holds. -/
theorem exec_sameBut_of_not_read {i : Instr} (hr : r ∉ readRegs i) (s : State) :
    SameBut r v (exec i s) (exec i (s.setReg r v)) := by
  have hread : ∀ q ∈ readRegs i, q ≠ r ∧ (s.setReg r v).reg q = s.reg q := fun q hq =>
    have hne : q ≠ r := fun e => hr (e ▸ hq)
    ⟨hne, s.reg_setReg_other v hne⟩
  cases i <;> simp only [readRegs, List.forall_mem_cons] at hread <;>
    simp only [exec]
  case rwd rd => exact sameBut_pollInput rd s
  case wwd rs =>
    rw [execWwd, execWwd, hread.1.2]
    exact sameBut_pollOutput (driveOutput (s.reg rs) s)
  case lwd rt rs offset => exact sameBut_execLwd hread.1.1 rt offset s
  case swd rt rs offset =>
    rw [execSwd_eq, execSwd_eq, hread.1.2, hread.2.1.2]
    exact .kept _
  case bne | beq | bgz | blz =>
    simp only [execBne, execBeq, execBgz, execBlz, hread]
    exact sameBut_branchIf _ _ s
  case jpr rs =>
    rw [execJpr, execJpr, hread.1.2]
    exact .kept _
  case jal target => exact sameBut_setReg_jumpTo .r2 s.npc _ s
  case jrl rs =>
    unfold execJrl
    split <;> exact sameBut_jumpAndLink hread.1.1 _ s
  case jmp | hlt | eni | dsi => exact .kept _
  all_goals
    simp only [execAdd, execSub, execAnd, execOrr, execNot, execTcp, execShl, execShr, execAdi,
      execOri, execLhi, hread]
    exact sameBut_writeResult _ _ s

end

end Sys2Proof.Machine

/-! The statements about reset, frames, register use, where the pc goes, and the halted state. -/

namespace Sys2Proof.Proofs
open Sys2Proof Sys2Proof.Machine

/-- Settles O47: JPR and JRL aside, every address the pc can be left at is a small distance from the next
instruction or in its region. -/
theorem othersStayNear : Obligations.OthersStayNear := by
  intro i s t h hregister _
  have hlt := s.pc.isLt
  have hpc : NextPc i s t.pc := exec_nextPc h
  generalize t.pc = p at hpc ⊢
  cases hpc with
  | stay => exact .inl ⟨-1, by omega, by omega, by omega⟩
  | next => exact .inl ⟨0, by omega, by omega, by rw [npc_toNat]; omega⟩
  | branch offset =>
      have hlo : -128 ≤ offset.toInt := BitVec.le_toInt offset
      have hhi : offset.toInt < 128 := BitVec.toInt_lt
      refine .inl ⟨offset.toInt, hlo, by omega, ?_⟩
      rw [branchTarget_toNat, npc_toNat]
      omega
  | region target =>
      right
      rw [jumpTarget_region, BitVec.toNat_add]
      rfl
  | register rs _ hi => exact hi.elim (absurd · (hregister rs).1) (absurd · (hregister rs).2)

/-- Settles O55: a step that changes `IE` runs the fetched instruction, and only ENI raises it. -/
theorem onlyEniEnables : Obligations.OnlyEniEnables := by
  intro s t h hs ht
  have hflags : ¬(t.ie = s.ie ∧ t.halted = s.halted) := fun e => by simp [hs, ht] at e
  obtain ⟨i, hfetch, hexec⟩ := step_runs_of_flags_changed h hflags
  rwa [exec_eni_of_ie_raised hexec hs ht] at hfetch

/-- Settles O57, clause by clause from the frame lemmas. -/
theorem writesAsListed : Obligations.WritesAsListed := by
  intro i s t h
  refine ⟨fun _ => exec_reg_of_not_written h, exec_word_of_not_swd h, ?_, exec_ie_of_not_eni_dsi h,
    exec_halted_of_not_hlt h, exec_output_of_not_wwd h, exec_ackEvents_of_not_wwd h,
    exec_inEvents_of_not_rwd h, exec_portWait_of_not_port h, exec_irqEvents h⟩
  rintro rt rs offset rfl a ha
  exact exec_swd_word_other h ha

/-- Settles O58: the outcomes agree but for the register, which holds its new value or is overwritten. -/
theorem readsAsListed : Obligations.ReadsAsListed := by
  intro i s r v hr
  have hsame : SameBut r v (exec i s) (exec i (s.setReg r v)) := exec_sameBut_of_not_read hr s
  constructor
  · intro f hf
    rw [hf] at hsame
    generalize exec i (s.setReg r v) = o' at hsame ⊢
    cases hsame
    rfl
  · intro t ht
    rw [ht] at hsame
    generalize exec i (s.setReg r v) = o' at hsame ⊢
    cases hsame with
    | kept => exact ⟨_, rfl, t.setReg_setReg_same r v 0, .inr (t.reg_setReg_same r v)⟩
    | overwritten => exact ⟨t, rfl, rfl, .inl rfl⟩

/-- Settles O1: the fields of the reset state as written, with no word of memory listed. -/
theorem resetLeaves : Obligations.ResetLeaves :=
  ⟨rfl, rfl, rfl, rfl, rfl, rfl, rfl, fun _ => rfl, fun _ _ => rfl⟩

/-- Settles O35, from what a load on this machine can do. -/
theorem lwdStops : Obligations.LwdStops := by
  intro rt rs offset s h
  rw [exec, execLwd_eq, h]

/-- Settles O48: a step that sets `halted` runs the fetched instruction, and only HLT sets it. -/
theorem haltedState : Obligations.HaltedState := by
  refine ⟨fun s => ⟨_, rfl, rfl⟩, ?_, fun s => step_of_halted⟩
  intro s t h hs ht
  have hflags : ¬(t.ie = s.ie ∧ t.halted = s.halted) := fun e => by simp [hs, ht] at e
  obtain ⟨i, hfetch, hexec⟩ := step_runs_of_flags_changed h hflags
  rwa [exec_hlt_of_halted_set hexec hs ht] at hfetch

end Sys2Proof.Proofs


/-! SUPPORT. What an instruction does to memory and to the words at the two ports, and how a step comes to
run the instruction it fetched. -/

namespace Sys2Proof.Machine

/-! ### Memory -/

/-- Only SWD changes memory, as a list and not only as it reads. -/
theorem exec_mem_of_not_swd {i : Instr} {s t : State} (h : exec i s = .next t)
    (hi : ∀ rt rs offset, i ≠ .swd rt rs offset) : t.mem = s.mem := by
  cases exec_effect h
  case store rt rs offset m e => exact absurd e (hi rt rs offset)
  all_goals rfl

/-- SWD puts its register at the effective address (rule R132). -/
theorem exec_swd_mem {rt rs : Reg} {offset : BitVec 8} {s t : State}
    (h : exec (.swd rt rs offset) s = .next t) :
    t.mem = Memory.insert s.mem (effectiveAddress (s.reg rs) offset).toNat (s.reg rt) := by
  obtain rfl : State.advance _ = t := Host.Outcome.next.inj ((execSwd_eq rt rs offset s).symm.trans h)
  rfl

/-- The word that SWD stored is the one the addressed word holds. -/
theorem exec_swd_word_same {rt rs : Reg} {offset : BitVec 8} {s t : State}
    (h : exec (.swd rt rs offset) s = .next t) :
    t.word (effectiveAddress (s.reg rs) offset) = some (s.reg rt) := by
  rw [State.word, exec_swd_mem h, Memory.lookup_insert_same]

/-- LWD of a word that holds a value loads it (rule R131). -/
theorem exec_lwd_of_word {rt rs : Reg} {offset : BitVec 8} {s : State} {v : Word}
    (h : s.word (effectiveAddress (s.reg rs) offset) = some v) :
    exec (.lwd rt rs offset) s = .next (s.setReg rt v).advance := by
  rw [exec, execLwd_eq, h]

/-- A register result changes its register and the pc alone. -/
theorem onlyResult_setReg_advance (s : State) (rd : Reg) (v : Word) :
    onlyResult rd s (s.setReg rd v).advance :=
  ⟨fun _ hq => s.reg_setReg_other v hq, npc_toNat s, fun _ => rfl,
    rfl, rfl, rfl, rfl, rfl, rfl, rfl, rfl, rfl⟩

/-- The effective address lies the signed displacement away from the base (rule R38): the same sum as that
of a branch's target. -/
theorem effectiveAddress_toNat (base : Word) (offset : BitVec 8) :
    ((effectiveAddress base offset).toNat : Int) = (base.toNat + offset.toInt) % 65536 :=
  branchTarget_toNat base offset

/-! ### Fetching and running -/

/-- A fetch stops where its read stops. -/
theorem fetchInstr_of_memRead_error {s : State} {f : Fault}
    (h : memRead Config.memWords s.pc s.mem = .error f) : fetchInstr s = .error f := by
  rw [fetchInstr, h]

/-- A machine that is not halted and takes no interrupt goes through the cycle. -/
theorem step_of_running {s : State} (hhalted : s.halted = false) (hirq : s.interruptTaken = false) :
    step s = cycle s.sampleIrq := by
  rw [step, hhalted, hirq]
  rfl

/-- With no port instruction waiting, the cycle runs the fetched instruction. -/
theorem cycle_of_fetch {s : State} {i : Instr} (hidle : s.portWait = .idle)
    (hfetch : fetchInstr s = .ok i) : cycle s = exec i s := by
  simp only [cycle, hidle, hfetch]

/-! ### The words at the two ports -/

/-- From `s` to `t` at most one word was written to the output, and at most the first word of the input
was read: program order at the ports (rules R42, R126). -/
def PortsInOrder (s t : State) : Prop :=
  (t.out = s.out ∨ ∃ v, t.out = s.out ++ [v]) ∧
    (t.inWords = s.inWords ∨ ∃ v, s.inWords = v :: t.inWords)

/-- A step that asks no device keeps the order. -/
theorem portsInOrder_of_eq {s t : State} (hout : t.out = s.out) (hin : t.inEvents = s.inEvents) :
    PortsInOrder s t :=
  ⟨.inl hout, .inl (congrArg (List.filterMap id) hin)⟩

/-- A poll without a signal spends no word of the input. -/
theorem inWords_tail_of_no_signal {s : State} (h : s.inputOffered = none) :
    s.inEvents.tail.filterMap id = s.inWords := by
  unfold State.inputOffered at h
  unfold State.inWords
  cases hs : s.inEvents with
  | nil => rfl
  | cons e es =>
      obtain rfl : e = none := by simpa [hs] using h
      rfl

/-- A poll with a signal spends the first word of the input. -/
theorem inWords_of_signal {s : State} {v : Word} {es : List (Option Word)}
    (h : s.inEvents = some v :: es) : s.inWords = v :: es.filterMap id := by
  rw [State.inWords, h]
  rfl

/-- Every instruction keeps the order: WWD writes one word, RWD reads one or waits. -/
theorem exec_portsInOrder {i : Instr} {s t : State} (h : exec i s = .next t) : PortsInOrder s t := by
  cases exec_effect h
  case inputWait rd _ hs => exact ⟨.inl rfl, .inl (inWords_tail_of_no_signal hs)⟩
  case inputDone rd v es _ hs => exact ⟨.inl rfl, .inr ⟨v, inWords_of_signal hs⟩⟩
  case outputWait rs _ _ | outputDone rs _ _ => exact ⟨.inr ⟨s.reg rs, rfl⟩, .inl rfl⟩
  all_goals exact portsInOrder_of_eq rfl rfl

/-- The wait of a WWD writes nothing more. -/
theorem pollOutput_portsInOrder {s t : State} (h : pollOutput s = .next t) : PortsInOrder s t := by
  obtain ⟨_, e⟩ | ⟨_, _, e⟩ | ⟨_, _, e⟩ := pollOutput_cases s <;>
    (cases e.symm.trans h; exact portsInOrder_of_eq rfl rfl)

/-- Every step keeps the order: it is nothing, an instruction, or a poll. -/
theorem step_portsInOrder {s t : State} (h : step s = .next t) : PortsInOrder s t := by
  obtain ⟨_, rfl⟩ | ⟨_, _, ⟨rd, _, hpoll⟩ | ⟨_, hpoll⟩ | ⟨_, i, _, hexec⟩⟩ := step_cases h
  · exact portsInOrder_of_eq rfl rfl
  · exact exec_portsInOrder (i := .rwd rd) (s := s.sampleIrq) hpoll
  · exact pollOutput_portsInOrder (s := s.sampleIrq) hpoll
  · exact exec_portsInOrder (s := s.sampleIrq) hexec

end Sys2Proof.Machine

/-! The statements about memory, the order at the ports, and the step that runs an instruction. -/

namespace Sys2Proof.Proofs
open Sys2Proof Sys2Proof.Machine

/-- Settles O30: the order at the ports is kept by instructions and polls alike. -/
theorem portStreams : Obligations.PortStreams := fun _ _ => step_portsInOrder

/-- Settles O32, from the laws of a write and the memory that each instruction leaves. -/
theorem memWriteSets : Obligations.MemWriteSets := by
  refine ⟨?_, ?_, fun _ _ _ => exec_mem_of_not_swd⟩
  · intro words a v m ha
    exact ⟨_, memWrite_eq_ok.mpr ⟨ha, rfl⟩, Memory.lookup_insert_same m a.toNat v,
      fun _ => Memory.lookup_insert_other m v⟩
  · intro rt rs offset s t h
    rw [exec_swd_mem h]
    exact memWrite_populated _ _ _

/-- Settles O37: the fetch reads the word that SWD left at the address. -/
theorem storeSeenByFetch : Obligations.StoreSeenByFetch := by
  intro rt rs offset s t i h hdecode
  have hword : t.word (effectiveAddress (s.reg rs) offset) = some (s.reg rt) := exec_swd_word_same h
  exact fetchInstr_eq_ok.mpr ⟨s.reg rt, hword, hdecode⟩

/-- Settles O31, from all that a read and a write can answer. -/
theorem memReadReturns : Obligations.MemReadReturns := by
  refine ⟨fun _ _ _ _ => memRead_eq_ok, fun _ _ _ ha => memRead_eq_error.mpr (.inr ⟨ha, rfl⟩),
    fun _ _ _ _ ha => if_neg (Nat.not_lt.mpr ha), fun _ _ => fetchInstr_of_memRead_error, ?_, ?_⟩
  · intro s w i hread hdecode
    exact fetchInstr_eq_ok.mpr ⟨w, (memRead_eq_ok.mp hread).2, hdecode⟩
  · intro rt rs offset s v hread
    exact ⟨_, exec_lwd_of_word (memRead_eq_ok.mp hread).2, s.reg_setReg_same rt v,
      onlyResult_setReg_advance s rt v⟩

/-- Settles O33: the sum of a branch's target, with another base. Protected, so that the short name stays
that of the model's function. -/
protected theorem effectiveAddress : Obligations.EffectiveAddress := effectiveAddress_toNat

/-- Settles O51: the step is the cycle, and the cycle runs what was fetched; the fetch does not look at
`irq`. -/
theorem stepRunsDecoded : Obligations.StepRunsDecoded := by
  intro s w i hhalted hirq hidle hword hdecode
  have hfetch : fetchInstr s.sampleIrq = .ok i := fetchInstr_eq_ok.mpr ⟨w, hword, hdecode⟩
  rw [step_of_running hhalted hirq]
  exact cycle_of_fetch (s := s.sampleIrq) hidle hfetch

end Sys2Proof.Proofs

/-! SUPPORT. Decoding and encoding as inverses of each other: what decoding an encoded word gives, what a
word that decodes looks like, and the opcode table's rows as the decoder's case distinction. -/

namespace Sys2Proof

/-! ### From an instruction to its word and back -/

/-- Opcode 15 selects the R format (rule R56). -/
theorem decode_of_opField_15 {w : Word} (h : (opField Config.layout w).toNat = 15) :
    decode w = decodeR Config.layout w := by
  simp [decode_eq_decodeFields, decodeFields, h]

theorem decode_encode (i : Instr) : decode (encode i) = .ok i := by
  cases i
  case adi | ori | lhi | lwd | swd | bne | beq | bgz | blz | jmp | jal =>
    simp [decode_eq_decodeFields, encode, encodeWith, decodeFields]
  all_goals
    simp only [encode, encodeWith]
    rw [decode_of_opField_15 (congrArg BitVec.toNat (opField_encodeR ..))]
    simp [decodeR]

/-- No two instructions have the same word. -/
theorem encode_injective {i j : Instr} (h : encode i = encode j) : i = j :=
  Except.ok.inj ((decode_encode i).symm.trans ((congrArg decode h).trans (decode_encode j)))

/-! ### A word is made of its fields (rules R53 to R55) -/

theorem exists_encodeR {w : Word} {n : Nat} (hop : (opField Config.layout w).toNat = 15)
    (hfn : (fnField Config.layout w).toNat = n) :
    ∃ rs rt rd, w = encodeR Config.layout (BitVec.ofNat 6 n) rs rt rd := by
  refine ⟨rsField Config.layout w, rtField Config.layout w, rdField Config.layout w, ?_⟩
  have hop : 15#4 = opField Config.layout w := BitVec.eq_of_toNat_eq hop.symm
  rw [encodeR, hop, ← hfn, BitVec.ofNat_toNat, BitVec.setWidth_eq]
  apply BitVec.eq_of_getLsbD_eq
  intro i hi
  interval_cases i <;> simp [place, Config.layout, opField, fnField, rsField, rtField, rdField]

theorem exists_encodeI {w : Word} {n : Nat} (hop : (opField Config.layout w).toNat = n) :
    ∃ rs rt imm, w = encodeI Config.layout (BitVec.ofNat 4 n) rs rt imm := by
  refine ⟨rsField Config.layout w, rtField Config.layout w, immField Config.layout w, ?_⟩
  rw [encodeI, ← hop, BitVec.ofNat_toNat, BitVec.setWidth_eq]
  apply BitVec.eq_of_getLsbD_eq
  intro i hi
  interval_cases i <;> simp [place, Config.layout, opField, rsField, rtField, immField]

theorem exists_encodeJ {w : Word} {n : Nat} (hop : (opField Config.layout w).toNat = n) :
    ∃ target, w = encodeJ Config.layout (BitVec.ofNat 4 n) target := by
  refine ⟨targetField Config.layout w, ?_⟩
  rw [encodeJ, ← hop, BitVec.ofNat_toNat, BitVec.setWidth_eq]
  apply BitVec.eq_of_getLsbD_eq
  intro i hi
  interval_cases i <;> simp [place, Config.layout, opField, targetField]

/-! ### Clearing an unused register field (rule R60) -/

/-- An instruction that uses every bit leaves nothing to clear. -/
@[simp] theorem and_0xFFFF (w : Word) : w &&& 65535#16 = w := BitVec.and_allOnes

section
variable (fn : BitVec 6) (op : BitVec 4) (rs rt rd : Reg) (imm : BitVec 8)

@[simp] theorem encodeR_clear :
    encodeR Config.layout fn rs rt rd &&& ~~~regMask Config.layout.rsLo =
        encodeR Config.layout fn .r0 rt rd ∧
      encodeR Config.layout fn rs rt rd &&& ~~~regMask Config.layout.rtLo =
        encodeR Config.layout fn rs .r0 rd ∧
      encodeR Config.layout fn rs rt rd &&& ~~~regMask Config.layout.rdLo =
        encodeR Config.layout fn rs rt .r0 := by
  unfold encodeR
  refine ⟨?_, ?_, ?_⟩ <;> apply BitVec.eq_of_getLsbD_eq <;> intro i hi <;>
    interval_cases i <;> simp [place, regMask, Config.layout, Reg.toBits]

@[simp] theorem encodeI_clear :
    encodeI Config.layout op rs rt imm &&& ~~~regMask Config.layout.rsLo =
        encodeI Config.layout op .r0 rt imm ∧
      encodeI Config.layout op rs rt imm &&& ~~~regMask Config.layout.rtLo =
        encodeI Config.layout op rs .r0 imm := by
  unfold encodeI
  refine ⟨?_, ?_⟩ <;> apply BitVec.eq_of_getLsbD_eq <;> intro i hi <;>
    interval_cases i <;> simp [place, regMask, Config.layout, Reg.toBits]

end

/-! ### From a word to its instruction and back -/

/-- In the R format the bits left over are those of the register fields that `fn` does not use. -/
theorem encode_of_decodeR {w : Word} {i : Instr} (hop : (opField Config.layout w).toNat = 15)
    (h : decodeR Config.layout w = .ok i) : encode i = w &&& ~~~unusedMask Config.layout i := by
  unfold decodeR at h
  split at h
  case h_16 => cases h
  all_goals
    rename_i hfn
    obtain ⟨rs, rt, rd, rfl⟩ := exists_encodeR hop hfn
    cases h
    simp [encode, encodeWith, unusedMask, BitVec.not_or, ← BitVec.and_assoc]

theorem encode_of_decode {w : Word} {i : Instr} (h : decode w = .ok i) :
    encode i = w &&& ~~~unusedMask Config.layout i := by
  rw [decode_eq_decodeFields, decodeFields] at h
  split at h
  case h_10 hop | h_11 hop =>
    obtain ⟨target, rfl⟩ := exists_encodeJ hop
    cases h
    simp [encode, encodeWith, unusedMask]
  case h_12 hop => exact encode_of_decodeR hop h
  case h_13 => cases h
  all_goals
    rename_i hop
    obtain ⟨rs, rt, imm, rfl⟩ := exists_encodeI hop
    cases h
    simp [encode, encodeWith, unusedMask]

/-! ### The rows of the opcode table (rules R57, R58) -/

/-- The encoder and the table agree on the bits that select the instruction. -/
theorem encode_tableMask (i : Instr) : encode i &&& i.mnemonic.tableMask = i.mnemonic.tableMatch := by
  cases i
  case adi | ori | lhi | lwd | swd | bne | beq | bgz | blz => exact encodeI_masked ..
  case jmp | jal => exact encodeJ_masked ..
  all_goals exact encodeR_masked ..

/-- The bits an instruction does not use, by its row of the table of rule R60. -/
def Mnemonic.unusedMask : Mnemonic → Word
  | .NOT | .TCP | .SHL | .SHR | .BGZ | .BLZ => 0x0300
  | .LHI => 0x0C00
  | .RWD => 0x0F00
  | .WWD | .JPR | .JRL => 0x03C0
  | .HLT | .ENI | .DSI => 0x0FC0
  | _ => 0

/-- Which bits are unused depends on the mnemonic alone. -/
theorem unusedMask_eq_mnemonic (i : Instr) :
    unusedMask Config.layout i = i.mnemonic.unusedMask := by
  cases i <;> rfl

/-- No bit that selects the instruction is unused. -/
theorem Mnemonic.not_unusedMask_and_tableMask (m : Mnemonic) :
    ~~~m.unusedMask &&& m.tableMask = m.tableMask := by
  cases m <;> rfl

/-- A word has the row's pattern whether or not its unused bits are cleared. -/
theorem tableMask_clear_unused (w : Word) (i : Instr) :
    (w &&& ~~~unusedMask Config.layout i) &&& i.mnemonic.tableMask = w &&& i.mnemonic.tableMask := by
  rw [BitVec.and_assoc, unusedMask_eq_mnemonic, Mnemonic.not_unusedMask_and_tableMask]

/-- Every row fixes the opcode. -/
theorem opcode_of_row {w : Word} {m : Mnemonic} (h : w &&& m.tableMask = m.tableMatch) :
    (opField Config.layout w).toNat = m.tableMatch.toNat / 4096 := by
  have hcover : opField Config.layout (w &&& m.tableMask) = opField Config.layout w := by
    apply BitVec.eq_of_getLsbD_eq
    intro i hi
    interval_cases i <;> cases m <;> simp [opField, Config.layout, Mnemonic.tableMask]
  rw [← h, ← opField_toNat, hcover]

/-- A row of the R format fixes the function code. -/
theorem function_of_row {w : Word} {m : Mnemonic} (hR : m.tableMask = 0xF03F)
    (h : w &&& m.tableMask = m.tableMatch) :
    (fnField Config.layout w).toNat = m.tableMatch.toNat % 64 := by
  have hcover : fnField Config.layout (w &&& 0xF03F) = fnField Config.layout w := by
    apply BitVec.eq_of_getLsbD_eq
    intro i hi
    interval_cases i <;> simp [fnField, Config.layout]
  rw [← h, ← fnField_toNat, hR, hcover]

theorem decode_of_row {w : Word} {m : Mnemonic} (h : w &&& m.tableMask = m.tableMatch) :
    ∃ i, decode w = .ok i ∧ i.mnemonic = m := by
  have hop := opcode_of_row h
  cases m
  case ADI | ORI | LHI | LWD | SWD | BNE | BEQ | BGZ | BLZ | JMP | JAL =>
    simp [decode_eq_decodeFields, decodeFields, hop, Mnemonic.tableMatch, Instr.mnemonic]
  all_goals
    have hfn := function_of_row rfl h
    rw [decode_of_opField_15 hop]
    simp [decodeR, hfn, Mnemonic.tableMatch, Instr.mnemonic]

theorem row_of_decode {w : Word} {i : Instr} (h : decode w = .ok i) :
    w &&& i.mnemonic.tableMask = i.mnemonic.tableMatch := by
  rw [← tableMask_clear_unused, ← encode_of_decode h, encode_tableMask]

/-! ### The words that are no instruction (rule R61) -/

theorem decodeR_error_iff (w : Word) : (∃ e, decodeR Config.layout w = .error e) ↔
    (8 ≤ w.toNat % 64 ∧ w.toNat % 64 ≤ 24) ∨ 32 ≤ w.toNat % 64 := by
  rw [decodeR, fnField_toNat]
  have hfn : w.toNat % 64 < 64 := Nat.mod_lt _ (by decide)
  generalize w.toNat % 64 = fn at hfn ⊢
  split
  case h_16 =>
    simp only [imp_false] at *
    simp
    omega
  all_goals simp

theorem decode_error_iff (w : Word) : (∃ e, decode w = .error e) ↔
    (11 ≤ w.toNat / 4096 ∧ w.toNat / 4096 ≤ 14) ∨
      (w.toNat / 4096 = 15 ∧ ∃ e, decodeR Config.layout w = .error e) := by
  rw [decode_eq_decodeFields, decodeFields, opField_toNat]
  have hop : w.toNat / 4096 < 16 := Nat.div_lt_of_lt_mul w.isLt
  generalize w.toNat / 4096 = op at hop ⊢
  split
  case h_13 =>
    simp only [imp_false] at *
    simp
    omega
  all_goals simp

/-! ### Unused fields (rule R60, decision D2) -/

/-- The decoder by the encoder: a word decodes to the instruction whose word it is but for the unused
bits. -/
theorem decode_eq_ok_iff {w : Word} {i : Instr} :
    decode w = .ok i ↔ encode i = w &&& ~~~unusedMask Config.layout i := by
  refine ⟨encode_of_decode, fun h => ?_⟩
  have hrow : w &&& i.mnemonic.tableMask = i.mnemonic.tableMatch := by
    rw [← tableMask_clear_unused, ← h, encode_tableMask]
  obtain ⟨j, hj, hmnemonic⟩ := decode_of_row hrow
  have hword : encode j = encode i := by
    rw [h, encode_of_decode hj, unusedMask_eq_mnemonic, unusedMask_eq_mnemonic, hmnemonic]
  rw [hj, encode_injective hword]

/-- The other value of UNUSED_FIELDS asks in addition that the unused bits be zero. -/
theorem decodeWith_mustBeZero_eq_ok {w : Word} {i : Instr} :
    decodeWith Config.layout .mustBeZero w = .ok i ↔
      decode w = .ok i ∧ w &&& unusedMask Config.layout i = 0 := by
  rw [decode_eq_decodeFields, decodeWith]
  cases decodeFields Config.layout w with
  | error e => simp
  | ok j =>
    constructor
    · intro h
      dsimp only at h
      split at h
      next hzero => cases h; exact ⟨rfl, hzero⟩
      next => cases h
    · rintro ⟨hj, hzero⟩
      cases hj
      exact if_pos hzero

/-- Clearing the bits of a mask changes nothing exactly where none of them is set. -/
theorem and_not_eq_self_iff (w m : Word) : w &&& ~~~m = w ↔ w &&& m = 0 := by
  constructor <;> intro h
  · rw [← h, BitVec.and_assoc, BitVec.and_comm (~~~m), BitVec.and_not_self]
    exact BitVec.and_zero
  · calc w &&& ~~~m = w &&& m ||| w &&& ~~~m := by simp [h]
      _ = w := by simp [← BitVec.and_or_distrib_left]

end Sys2Proof

/-! SUPPORT. Assembling one line: which operands fit their places, and where a label in reach leads. -/

namespace Sys2Proof.Machine

/-! ### Operands written by the disassembler, read back (rules R64, R67) -/

@[simp] theorem regOfNumber_regNumber (r : Reg) : regOfNumber (regNumber r) = r := by
  cases r <;> rfl

@[simp] theorem fits_regNumber (a : Word) (r : Reg) :
    (AsmOperand.reg (regNumber r)).fits a .register = true := by
  cases r <;> rfl

@[simp] theorem fits_asmSigned (a : Word) (v : BitVec 8) : (asmSigned v).fits a .signed8 = true := by
  have hlo : -128 ≤ v.toInt := BitVec.le_toInt v
  have hhi : v.toInt < 128 := BitVec.toInt_lt
  exact decide_eq_true ⟨hlo, by omega⟩

/-- A branch offset has the range of a signed immediate. -/
@[simp] theorem fits_asmSigned_branchOffset (a : Word) (v : BitVec 8) :
    (asmSigned v).fits a .branchOffset = true :=
  fits_asmSigned a v

@[simp] theorem fits_asmUnsigned (a : Word) (v : BitVec 8) :
    (asmUnsigned v).fits a .unsigned8 = true := by
  have hv := v.isLt
  exact decide_eq_true ⟨by omega, by omega⟩

@[simp] theorem fits_asmTarget (a : Word) (v : BitVec 12) :
    (asmTarget v).fits a .jumpTarget = true := by
  have hv := v.isLt
  exact decide_eq_true ⟨by omega, by omega⟩

@[simp] theorem operandImm_asmSigned (a : Word) (v : BitVec 8) : operandImm a (asmSigned v) = v :=
  BitVec.ofInt_toInt

@[simp] theorem operandImm_asmUnsigned (a : Word) (v : BitVec 8) :
    operandImm a (asmUnsigned v) = v := by
  simp [operandImm, asmUnsigned]

@[simp] theorem operandTarget_asmTarget (v : BitVec 12) : operandTarget (asmTarget v) = v := by
  simp [operandTarget, asmTarget]

/-! ### Lines -/

/-- A line assembles exactly when its operands fit their places. -/
theorem assemble_eq_ite (a : Word) (m : Mnemonic) (os : List AsmOperand) :
    assemble a ⟨m, os⟩ =
      if AsmOperand.allFit a m.shape os then buildInstr a ⟨m, os⟩ else none := rfl

theorem allFit_asmOperands (a : Word) (i : Instr) :
    AsmOperand.allFit a i.mnemonic.shape (asmOperands i) = true := by
  cases i <;> simp [Instr.mnemonic, asmOperands, asmReg, Mnemonic.shape, AsmOperand.allFit]

theorem buildInstr_disassemble (a : Word) (i : Instr) : buildInstr a (disassemble i) = some i := by
  cases i <;> simp [disassemble, Instr.mnemonic, asmOperands, asmReg, buildInstr]

/-! ### Labels (rules R65, R66) -/

/-- A word in the signed 8-bit range is the sign extension of its low byte. -/
theorem sext16_setWidth {d : Word} (hlo : -128 ≤ d.toInt) (hhi : d.toInt ≤ 127) :
    sext16 (d.setWidth 8) = d := by
  have hlow : (d.setWidth 8).toInt = d.toInt.bmod 256 := by
    rw [BitVec.toInt_setWidth, BitVec.toInt_eq_toNat_bmod, Int.bmod_bmod_of_dvd (by decide)]
  apply BitVec.eq_of_toInt_eq
  rw [sext16, BitVec.toInt_signExtend_of_le (by decide), hlow,
    Int.bmod_eq_of_le (by omega) (by omega)]

/-- The offset computed for a label in reach is the one whose branch goes there (rule R65). -/
theorem branchTarget_labelDistance {a l : Word} (hlo : -128 ≤ (labelDistance a l).toInt)
    (hhi : (labelDistance a l).toInt ≤ 127) :
    branchTarget (a + 1) (operandImm a (.label l)) = l := by
  rw [branchTarget, operandImm, sext16_setWidth hlo hhi, labelDistance, BitVec.add_comm,
    BitVec.sub_add_cancel]

/-- The target computed for a label in the region is the one whose jump goes there (rule R66). -/
theorem jumpTarget_label {a l : Word} (h : l.extractLsb' 12 4 = (a + 1).extractLsb' 12 4) :
    jumpTarget .next a (operandTarget (.label l)) = l := by
  have hregion : l.toNat / 4096 % 16 = (a + 1).toNat / 4096 % 16 := by
    simpa only [BitVec.extractLsb'_toNat, Nat.shiftRight_eq_div_pow] using congrArg BitVec.toNat h
  have hl := l.isLt
  have ha := (a + 1).isLt
  apply BitVec.eq_of_toNat_eq
  rw [jumpTarget_toNat, regionAddress, operandTarget, BitVec.toNat_setWidth]
  omega

end Sys2Proof.Machine

/-! SUPPORT. Where a fetch stops, and the step with it. -/

namespace Sys2Proof.Machine

/-- A fetch of a word without a value stops (rule R171, decision D10). -/
theorem fetchInstr_of_no_value {s : State} (h : s.word s.pc = none) :
    fetchInstr s = .error (.uninitialisedMemory s.pc) :=
  fetchInstr_of_memRead_error (memRead_eq_error.mpr (.inl ⟨toNat_lt_memWords s.pc, h, rfl⟩))

/-- A fetch of a word that is no instruction stops (rule R61, decision D3). -/
theorem fetchInstr_of_decode_error {s : State} {w : Word} {e : DecodeError}
    (hword : s.word s.pc = some w) (hdecode : decode w = .error e) :
    fetchInstr s = .error (.illegalInstruction w) := by
  have hread : memRead Config.memWords s.pc s.mem = .ok w :=
    memRead_eq_ok.mpr ⟨toNat_lt_memWords s.pc, hword⟩
  simp only [fetchInstr, hread, hdecode]

/-- Where the fetch stops, a machine that is about to fetch stops. -/
theorem step_of_fetch_error {s : State} {f : Fault} (hhalted : s.halted = false)
    (hirq : s.interruptTaken = false) (hidle : s.portWait = .idle) (hfetch : fetchInstr s = .error f) :
    step s = .fault f := by
  have hsample : fetchInstr s.sampleIrq = .error f := (fetchInstr_congr rfl rfl).trans hfetch
  have hwait : s.sampleIrq.portWait = .idle := hidle
  rw [step_of_running hhalted hirq]
  simp only [cycle, hwait, hsample]

end Sys2Proof.Machine

/-! The statements about decoding, encoding, the assembler's lines, and the stops of a fetch. -/

namespace Sys2Proof.Proofs
open Sys2Proof Sys2Proof.Machine

/-- Settles O5: opcode and function code select the arm the instruction was encoded from, and the fields of
its format are read back. -/
theorem decodeEncode : Obligations.DecodeEncode := decode_encode

/-- Settles O6: the word is of the selected format, whose unused register fields the mask clears. -/
theorem encodeDecode : Obligations.EncodeDecode := fun _ _ => encode_of_decode

/-- Settles O7: a row's pattern fixes the opcode and function code that select its instruction; the other
way round, a word that decodes agrees with the encoded word on the bits the row selects. -/
theorem decodeFollowsTable : Obligations.DecodeFollowsTable := by
  intro w m
  refine ⟨decode_of_row, ?_⟩
  rintro ⟨i, hdecode, rfl⟩
  exact row_of_decode hdecode

/-- Settles O8, from the words each of the two selections refuses. -/
theorem illegalWords : Obligations.IllegalWords := by
  intro w
  rw [decode_error_iff, decodeR_error_iff]

/-- Settles O9: a word decodes to the instruction whose word it is but for the unused bits. -/
theorem unusedFieldsIgnored : Obligations.UnusedFieldsIgnored := by
  intro w w' i h hagree
  exact decode_eq_ok_iff.mpr ((encode_of_decode h).trans hagree)

/-- Settles O10: a word that decodes with its unused bits at zero is the encoded word. -/
theorem mustBeZeroIsCanonical : Obligations.MustBeZeroIsCanonical := by
  intro w i
  rw [decodeWith_mustBeZero_eq_ok, decode_eq_ok_iff, ← and_not_eq_self_iff]
  constructor
  · rintro ⟨hword, hzero⟩
    exact hword.trans hzero
  · rintro rfl
    have hcanonical := encode_of_decode (decode_encode i)
    exact ⟨hcanonical, hcanonical.symm⟩

/-- Settles O11: each word is the encoded word of its instruction. -/
theorem sampleWordsDecode : Obligations.SampleWordsDecode :=
  ⟨decode_encode (.add .r1 .r2 .r0), decode_encode (.and .r3 .r1 .r2), decode_encode (.rwd .r2),
    decode_encode (.jrl .r3), decode_encode (.adi .r0 .r1 0xEF), decode_encode (.swd .r1 .r3 0xFE),
    decode_encode (.beq .r2 .r0 0xDC), decode_encode (.jal 0x5B0)⟩

/-- Settles O12: every operand written fits its place and is read back. -/
theorem assembleDisassemble : Obligations.AssembleDisassemble := by
  intro a i
  exact (if_pos (allFit_asmOperands a i)).trans (buildInstr_disassemble a i)

/-- Settles O13: the check of the label is the reach itself, and in reach the offset computed leads to the
label. -/
theorem branchLabelReached : Obligations.BranchLabelReached := by
  intro a l rs rt
  constructor
  · rintro ⟨hlo, hhi⟩
    have hfits : (AsmOperand.label l).fits a .branchOffset = true := decide_eq_true ⟨hlo, hhi⟩
    refine ⟨operandImm a (.label l), branchTarget_labelDistance hlo hhi, ?_⟩
    simp [assemble_eq_ite, Mnemonic.shape, AsmOperand.allFit, asmReg, hfits, buildInstr]
  · intro hout
    have hfits : (AsmOperand.label l).fits a .branchOffset = false :=
      decide_eq_false fun ⟨hlo, hhi⟩ => by unfold labelDistance at hlo hhi; omega
    simp [assemble_eq_ite, Mnemonic.shape, AsmOperand.allFit, hfits]

/-- Settles O14: the check of the label is the region itself, and in the region the target computed leads
to the label. -/
theorem jumpLabelReached : Obligations.JumpLabelReached := by
  intro a l
  constructor
  · intro h
    have hfits : (AsmOperand.label l).fits a .jumpTarget = true := beq_iff_eq.mpr h
    refine ⟨operandTarget (.label l), jumpTarget_label h, ?_⟩
    simp [assemble_eq_ite, Mnemonic.shape, AsmOperand.allFit, hfits, buildInstr]
  · intro h
    have hfits : (AsmOperand.label l).fits a .jumpTarget = false := beq_eq_false_iff_ne.mpr h
    simp [assemble_eq_ite, Mnemonic.shape, AsmOperand.allFit, hfits]

/-- Settles O15: the number does not fit its place, whatever the registers before it. -/
theorem outOfRangeRefused : Obligations.OutOfRangeRefused := by
  intro a rs rt n
  refine ⟨fun hn => ?_, fun hn => ?_, fun hn => ?_⟩
  · have hsigned : (AsmOperand.num n).fits a .signed8 = false := decide_eq_false (by omega)
    have hoffset : (AsmOperand.num n).fits a .branchOffset = false := hsigned
    simp [assemble_eq_ite, Mnemonic.shape, AsmOperand.allFit, hsigned, hoffset]
  · have hfits : (AsmOperand.num n).fits a .unsigned8 = false := decide_eq_false (by omega)
    simp [assemble_eq_ite, Mnemonic.shape, AsmOperand.allFit, hfits]
  · have hfits : (AsmOperand.num n).fits a .jumpTarget = false := decide_eq_false (by omega)
    simp [assemble_eq_ite, Mnemonic.shape, AsmOperand.allFit, hfits]

/-- Settles O52: the step stops where the fetch does. -/
theorem fetchStops : Obligations.FetchStops := by
  intro s hhalted hirq hidle
  have hstop : ∀ {f}, fetchInstr s = .error f → step s = .fault f :=
    step_of_fetch_error hhalted hirq hidle
  exact ⟨fun h => hstop (fetchInstr_of_no_value h),
    fun _ _ hword hdecode => hstop (fetchInstr_of_decode_error hword hdecode)⟩

end Sys2Proof.Proofs

/-! SUPPORT. The values of the register operations as numbers, how an instruction with a register result
ends, and which instructions stop. -/

namespace Sys2Proof.Machine

/-! ### Results as numbers (rules R102, R106 to R108) -/

/-- SUB's result is the difference modulo 65536. -/
theorem subtract_toNat (a b : Word) :
    ((subtract a b).toNat : Int) = (a.toNat - b.toNat : Int) % 65536 := by
  have ha := a.isLt
  have hb := b.isLt
  rw [subtract_eq_sub, BitVec.toNat_sub]
  omega

/-- TCP's result is the number's distance from 65536, which is 0 for 0. -/
theorem negate_toNat (a : Word) : (negate a).toNat = (65536 - a.toNat) % 65536 := by
  rw [negate_eq_neg]
  exact BitVec.toNat_neg a

/-- SHL doubles modulo 65536. -/
theorem shiftLeftOne_toNat (a : Word) : (shiftLeftOne a).toNat = (2 * a.toNat) % 65536 := by
  rw [shiftLeftOne_eq_shift, BitVec.toNat_shiftLeft, Nat.shiftLeft_eq, Nat.mul_comm]

/-- SHR halves the signed number, rounding toward minus infinity: the quotient by 2 is the floor. -/
theorem shiftRightOne_toInt (a : Word) : (shiftRightOne a).toInt = a.toInt / 2 := by
  rw [shiftRightOne_eq_shift, BitVec.toInt_sshiftRight, Int.shiftRight_eq_div_pow]
  rfl

/-! ### Register results -/

/-- An instruction with a register result completes with its value in the destination, and changes the
destination and the pc alone. -/
theorem writeResult_completes (rd : Reg) (v : Word) (s : State) :
    ∃ t, writeResult rd v s = .next t ∧ t.reg rd = v ∧ onlyResult rd s t :=
  ⟨_, rfl, s.reg_setReg_same rd v, onlyResult_setReg_advance s rd v⟩

/-! ### Instructions that complete -/

theorem pollInput_completes (rd : Reg) (s : State) : ∃ t, pollInput rd s = .next t := by
  obtain ⟨_, e⟩ | ⟨_, _, e⟩ | ⟨_, _, _, e⟩ := pollInput_cases rd s <;> exact ⟨_, e⟩

theorem pollOutput_completes (s : State) : ∃ t, pollOutput s = .next t := by
  obtain ⟨_, e⟩ | ⟨_, _, e⟩ | ⟨_, _, e⟩ := pollOutput_cases s <;> exact ⟨_, e⟩

/-- JRL completes under either reading of rule R155. -/
theorem execJrl_completes (rs : Reg) (s : State) : ∃ t, execJrl rs s = .next t := by
  have hcompletes : ∀ reading, ∃ t, jumpAndLink reading rs s = .next t
    | .readFirst => ⟨_, rfl⟩
    | .writeFirst => ⟨_, rfl⟩
  unfold execJrl
  split
  · exact hcompletes _
  · exact hcompletes _

/-- Every instruction completes, but for an LWD of a word without a value, which is a fault. -/
theorem exec_completes_or_lwd_stops (i : Instr) (s : State) :
    (∃ t, exec i s = .next t) ∨
      ∃ rt rs offset, i = .lwd rt rs offset ∧
        s.word (effectiveAddress (s.reg rs) offset) = none ∧
        exec i s = .fault (.uninitialisedMemory (effectiveAddress (s.reg rs) offset)) := by
  cases i
  case lwd rt rs offset =>
    cases hword : s.word (effectiveAddress (s.reg rs) offset) with
    | some v => exact .inl ⟨_, exec_lwd_of_word hword⟩
    | none => exact .inr ⟨rt, rs, offset, rfl, hword, Proofs.lwdStops rt rs offset s hword⟩
  case swd rt rs offset => exact .inl ⟨_, execSwd_eq rt rs offset s⟩
  case rwd rd => exact .inl (pollInput_completes rd s)
  case wwd rs => exact .inl (pollOutput_completes (driveOutput (s.reg rs) s))
  case jrl rs => exact .inl (execJrl_completes rs s)
  all_goals exact .inl ⟨_, rfl⟩

end Sys2Proof.Machine

/-! The statements about register arithmetic and logic, and about the instructions that stop. -/

namespace Sys2Proof.Proofs
open Sys2Proof Sys2Proof.Machine

/-- Settles O21: an arithmetic shift by one is the floor of the half. -/
theorem shrResult : Obligations.ShrResult := by
  intro rd rs s
  obtain ⟨t, hexec, hreg, hframe⟩ := writeResult_completes rd (shiftRightOne (s.reg rs)) s
  exact ⟨t, hexec, hreg ▸ shiftRightOne_toInt (s.reg rs), hframe⟩

/-- Settles O56: an instruction completes or is the load that stops. -/
theorem onlyLoadsStop : Obligations.OnlyLoadsStop := by
  intro i s
  obtain ⟨t, hexec⟩ | ⟨rt, rs, offset, hi, hword, hexec⟩ := exec_completes_or_lwd_stops i s
  · rw [hexec]
    exact ⟨nofun, nofun⟩
  · rw [hexec]
    exact ⟨nofun, fun f hf => ⟨rt, rs, offset, hi, hword, (Host.Outcome.fault.inj hf).symm⟩⟩

/-- Settles O16: the sum of words is the sum modulo 65536. -/
theorem addResult : Obligations.AddResult := by
  intro rd rs rt s
  obtain ⟨t, hexec, hreg, hframe⟩ := writeResult_completes rd (s.reg rs + s.reg rt) s
  exact ⟨t, hexec, hreg ▸ BitVec.toNat_add (s.reg rs) (s.reg rt), hframe⟩

/-- Settles O17: `rs + ~rt + 1` is the difference modulo 65536. -/
theorem subResult : Obligations.SubResult := by
  intro rd rs rt s
  obtain ⟨t, hexec, hreg, hframe⟩ := writeResult_completes rd (subtract (s.reg rs) (s.reg rt)) s
  exact ⟨t, hexec, hreg ▸ subtract_toNat (s.reg rs) (s.reg rt), hframe⟩

/-- Settles O18, bit by bit. -/
theorem andOrrResult : Obligations.AndOrrResult := by
  intro rd rs rt s
  constructor
  · obtain ⟨t, hexec, hreg, hframe⟩ := writeResult_completes rd (s.reg rs &&& s.reg rt) s
    exact ⟨t, hexec, fun k => hreg ▸ BitVec.getElem_and k.isLt, hframe⟩
  · obtain ⟨t, hexec, hreg, hframe⟩ := writeResult_completes rd (s.reg rs ||| s.reg rt) s
    exact ⟨t, hexec, fun k => hreg ▸ BitVec.getElem_or k.isLt, hframe⟩

/-- Settles O19: the complement is the distance from 65535, its successor the distance from 65536. -/
theorem notTcpResult : Obligations.NotTcpResult := by
  intro rd rs s
  constructor
  · obtain ⟨t, hexec, hreg, hframe⟩ := writeResult_completes rd (~~~s.reg rs) s
    exact ⟨t, hexec, hreg ▸ BitVec.toNat_not, hframe⟩
  · obtain ⟨t, hexec, hreg, hframe⟩ := writeResult_completes rd (negate (s.reg rs)) s
    exact ⟨t, hexec, hreg ▸ negate_toNat (s.reg rs), hframe⟩

/-- Settles O20: the low fifteen bits above a zero are twice the number modulo 65536. -/
theorem shlResult : Obligations.ShlResult := by
  intro rd rs s
  obtain ⟨t, hexec, hreg, hframe⟩ := writeResult_completes rd (shiftLeftOne (s.reg rs)) s
  exact ⟨t, hexec, hreg ▸ shiftLeftOne_toNat (s.reg rs), hframe⟩

end Sys2Proof.Proofs

/-! SUPPORT. The values of the immediate operations: the sum as a number, the or bit by bit, the high byte as
a number. -/

namespace Sys2Proof.Machine

/-- ADI's sum counts the immediate as signed (rule R111): it is the effective address of that displacement. -/
theorem add_sext16_toNat (a : Word) (imm : BitVec 8) :
    ((a + sext16 imm).toNat : Int) = (a.toNat + imm.toInt) % 65536 :=
  effectiveAddress_toNat a imm

/-- ORI's second operand has no bit above the immediate's (rule R112). -/
theorem getElem_or_zext16 (a : Word) (imm : BitVec 8) (k : Fin 16) :
    (a ||| zext16 imm)[k] = (a[k] || imm.getLsbD k) := by
  simp [zext16_eq_setWidth]

/-- LHI's result is the immediate times 256 (rule R113). -/
theorem highByte_toNat (imm : BitVec 8) : (highByte imm).toNat = imm.toNat * 256 := by
  have himm := imm.isLt
  rw [highByte_eq_shift, BitVec.toNat_shiftLeft, BitVec.toNat_setWidth, Nat.shiftLeft_eq]
  omega

end Sys2Proof.Machine

/-! The statements about immediate arithmetic and logic. -/

namespace Sys2Proof.Proofs
open Sys2Proof Sys2Proof.Machine

/-- Settles O22: the sign-extended immediate adds its signed number modulo 65536. -/
theorem adiResult : Obligations.AdiResult := by
  intro rt rs imm s
  obtain ⟨t, hexec, hreg, hframe⟩ := writeResult_completes rt (s.reg rs + sext16 imm) s
  exact ⟨t, hexec, hreg ▸ add_sext16_toNat (s.reg rs) imm, hframe⟩

/-- Settles O23, bit by bit: above bit 7 the immediate adds nothing. -/
theorem oriResult : Obligations.OriResult := by
  intro rt rs imm s
  obtain ⟨t, hexec, hreg, hframe⟩ := writeResult_completes rt (s.reg rs ||| zext16 imm) s
  exact ⟨t, hexec, fun k => hreg ▸ getElem_or_zext16 (s.reg rs) imm k, hframe⟩

/-- Settles O24: the immediate above eight zeros is 256 times it. -/
theorem lhiResult : Obligations.LhiResult := by
  intro rt imm s
  obtain ⟨t, hexec, hreg, hframe⟩ := writeResult_completes rt (highByte imm) s
  exact ⟨t, hexec, hreg ▸ highByte_toNat imm, hframe⟩

end Sys2Proof.Proofs

/-! SUPPORT. A poll of a device by the answer it finds, and why the invariant survives every step. -/

namespace Sys2Proof.Machine

/-! ### A poll, by the device's answer (rules R122 to R125) -/

/-- An offered word is taken and the RWD completes. -/
theorem pollInput_of_signal (rd : Reg) {s : State} {v : Word} (h : s.inputOffered = some v) :
    pollInput rd s =
      .next (State.setReg { s with portWait := .idle, inEvents := s.inEvents.tail } rd v).advance := by
  obtain ⟨hin, _⟩ | ⟨es, hin, _⟩ | ⟨w, es, hin, e⟩ := pollInput_cases rd s
  · simp [State.inputOffered, hin] at h
  · simp [State.inputOffered, hin] at h
  · obtain rfl : w = v := by simpa [State.inputOffered, hin] using h
    rw [e, hin]
    rfl

/-- Without a signal the RWD waits, and the poll is spent. -/
theorem pollInput_of_no_signal (rd : Reg) {s : State} (h : s.inputOffered = none) :
    pollInput rd s = .next { s with portWait := .input rd, inEvents := s.inEvents.tail } := by
  obtain ⟨hin, e⟩ | ⟨es, hin, e⟩ | ⟨v, es, hin, _⟩ := pollInput_cases rd s
  · have hspent : s.inEvents.tail = s.inEvents := by rw [hin]; rfl
    rw [e, hspent]
  · rw [e, hin]
    rfl
  · simp [State.inputOffered, hin] at h

/-- With the acknowledge the WWD completes. -/
theorem pollOutput_of_ack {s : State} (h : s.ackEvents.headD false = true) :
    pollOutput s = .next (releaseOutput { s with ackEvents := s.ackEvents.tail }).advance := by
  obtain ⟨hack, _⟩ | ⟨es, hack, _⟩ | ⟨es, hack, e⟩ := pollOutput_cases s
  · simp [hack] at h
  · simp [hack] at h
  · rw [e, hack]
    rfl

/-- Without the acknowledge the WWD waits, and the poll is spent. -/
theorem pollOutput_of_no_ack {s : State} (h : s.ackEvents.headD false = false) :
    pollOutput s = .next { s with portWait := .output, ackEvents := s.ackEvents.tail } := by
  obtain ⟨hack, e⟩ | ⟨es, hack, e⟩ | ⟨es, hack, _⟩ := pollOutput_cases s
  · have hspent : s.ackEvents.tail = s.ackEvents := by rw [hack]; rfl
    rw [e, hspent]
  · rw [e, hack]
    rfl
  · simp [hack] at h

/-! ### A step of a wait (rule R185) -/

/-- While an RWD waits, a step polls the input device and fetches nothing. -/
theorem step_of_input_wait {s : State} {rd : Reg} (hhalted : s.halted = false)
    (hirq : s.interruptTaken = false) (hwait : s.portWait = .input rd) :
    step s = pollInput rd s.sampleIrq := by
  rw [step_of_running hhalted hirq, cycle, State.sampleIrq_portWait, hwait]

/-- While a WWD waits, a step polls the output device and fetches nothing. -/
theorem step_of_output_wait {s : State} (hhalted : s.halted = false)
    (hirq : s.interruptTaken = false) (hwait : s.portWait = .output) :
    step s = pollOutput s.sampleIrq := by
  rw [step_of_running hhalted hirq, cycle, State.sampleIrq_portWait, hwait]

/-! ### The invariant, by what the machine is doing -/

/-- The output port as a WWD drives it: the signal asserted with the trace's last word (rules R121, R125). -/
def OutputDriven (s : State) : Prop :=
  s.outSignal = true ∧ s.outPort = s.out.getLast? ∧ s.out ≠ []

/-- With no port instruction waiting, the invariant asks for canonical memory alone. -/
theorem machineInv_of_idle {s : State} (hmem : s.mem.wf) (hidle : s.portWait = .idle) :
    MachineInv s where
  memory := hmem
  haltedIdle _ := hidle
  inputAtRwd _ h := nomatch hidle.symm.trans h
  outputAtWwd h := nomatch hidle.symm.trans h
  outputDriven h := nomatch hidle.symm.trans h

theorem machineInv_of_input {s : State} {rd : Reg} (hmem : s.mem.wf) (hhalted : s.halted = false)
    (hwait : s.portWait = .input rd) (hfetch : fetchInstr s = .ok (.rwd rd)) : MachineInv s where
  memory := hmem
  haltedIdle h := nomatch hhalted.symm.trans h
  inputAtRwd _ h := PortWait.input.inj (hwait.symm.trans h) ▸ hfetch
  outputAtWwd h := nomatch hwait.symm.trans h
  outputDriven h := nomatch hwait.symm.trans h

theorem machineInv_of_output {s : State} {rs : Reg} (hmem : s.mem.wf) (hhalted : s.halted = false)
    (hwait : s.portWait = .output) (hfetch : fetchInstr s = .ok (.wwd rs)) (hdriven : OutputDriven s) :
    MachineInv s where
  memory := hmem
  haltedIdle h := nomatch hhalted.symm.trans h
  inputAtRwd _ h := nomatch hwait.symm.trans h
  outputAtWwd _ := ⟨rs, hfetch⟩
  outputDriven _ := hdriven

/-! ### What keeps the invariant -/

theorem driveOutput_driven (v : Word) (s : State) : OutputDriven (driveOutput v s) := by
  simp [OutputDriven]

/-- Every instruction keeps memory canonical: SWD inserts one word, the others leave the list alone. -/
theorem exec_mem_wf {i : Instr} {s t : State} (h : exec i s = .next t) (hmem : s.mem.wf) :
    t.mem.wf := by
  cases i
  case swd rt rs offset =>
    rw [exec_swd_mem h]
    exact Memory.insert_wf _ hmem (toNat_lt_memWords _)
  all_goals rwa [exec_mem_of_not_swd h nofun]

section
variable {s t : State} (hmem : s.mem.wf) (hhalted : s.halted = false)
include hmem hhalted

/-- The poll of an RWD leaves it waiting with the pc and memory it was fetched from, or ends the wait. -/
theorem pollInput_machineInv {rd : Reg} (hfetch : fetchInstr s = .ok (.rwd rd))
    (h : pollInput rd s = .next t) : MachineInv t := by
  cases hoffer : s.inputOffered with
  | none =>
      cases (pollInput_of_no_signal rd hoffer).symm.trans h
      exact machineInv_of_input hmem hhalted rfl ((fetchInstr_congr rfl rfl).trans hfetch)
  | some v =>
      cases (pollInput_of_signal rd hoffer).symm.trans h
      exact machineInv_of_idle hmem rfl

/-- The poll of a WWD leaves it waiting with the port still driven, or ends the wait. -/
theorem pollOutput_machineInv {rs : Reg} (hfetch : fetchInstr s = .ok (.wwd rs))
    (hdriven : OutputDriven s) (h : pollOutput s = .next t) : MachineInv t := by
  cases hack : s.ackEvents.headD false with
  | false =>
      cases (pollOutput_of_no_ack hack).symm.trans h
      exact machineInv_of_output hmem hhalted rfl ((fetchInstr_congr rfl rfl).trans hfetch) hdriven
  | true =>
      cases (pollOutput_of_ack hack).symm.trans h
      exact machineInv_of_idle hmem rfl

/-- Running the fetched instruction establishes the invariant: only the port instructions begin a wait, and
each of them begins it with its first poll. -/
theorem exec_machineInv {i : Instr} (hidle : s.portWait = .idle) (hfetch : fetchInstr s = .ok i)
    (h : exec i s = .next t) : MachineInv t := by
  cases i
  case rwd rd => exact pollInput_machineInv hmem hhalted hfetch h
  case wwd rs =>
    exact pollOutput_machineInv (s := driveOutput (s.reg rs) s) hmem hhalted
      ((fetchInstr_congr rfl rfl).trans hfetch) (driveOutput_driven _ s) h
  all_goals
    exact machineInv_of_idle (exec_mem_wf h hmem)
      ((exec_portWait_of_not_port h fun _ => ⟨nofun, nofun⟩).trans hidle)

end

/-- Every step keeps the invariant: it is the poll of the instruction that waits, or it runs the one
fetched. -/
theorem step_machineInv {s t : State} (hinv : MachineInv s) (h : step s = .next t) : MachineInv t := by
  have hsample : fetchInstr s.sampleIrq = fetchInstr s := fetchInstr_congr rfl rfl
  obtain ⟨_, rfl⟩ | ⟨hhalted, _, ⟨rd, hwait, hpoll⟩ | ⟨hwait, hpoll⟩ | ⟨hidle, i, hfetch, hexec⟩⟩ :=
    step_cases h
  · exact hinv
  · exact pollInput_machineInv (s := s.sampleIrq) hinv.memory hhalted
      (hsample.trans (hinv.inputAtRwd rd hwait)) hpoll
  · obtain ⟨rs, hfetch⟩ := hinv.outputAtWwd hwait
    exact pollOutput_machineInv (s := s.sampleIrq) hinv.memory hhalted (hsample.trans hfetch)
      (hinv.outputDriven hwait) hpoll
  · exact exec_machineInv (s := s.sampleIrq) hinv.memory hhalted hidle (hsample.trans hfetch) hexec

end Sys2Proof.Machine

/-! The statements about the machine invariant and the two ports. -/

namespace Sys2Proof.Proofs
open Sys2Proof Sys2Proof.Machine

/-- Settles O3: a step polls the port instruction that waits or runs the one fetched, and each keeps the
invariant. -/
theorem stepKeepsInvariant : Obligations.StepKeepsInvariant := fun _ _ => step_machineInv

/-- Settles O4, by induction over the run. -/
theorem reachedKeepsInvariant : Obligations.ReachedKeepsInvariant :=
  fun _ _ hinv hrun => hrun.keeps hinv fun _ _ => step_machineInv

/-- Settles O25: the poll takes the head of the device's answers. -/
theorem rwdCompletes : Obligations.RwdCompletes := by
  intro rd s v es hin
  have hoffer : s.inputOffered = some v := by rw [State.inputOffered, hin]; rfl
  exact ⟨_, pollInput_of_signal rd hoffer, State.reg_setReg_same _ rd v,
    fun _ hq => State.reg_setReg_other _ v hq, npc_toNat s, fun _ => rfl, congrArg List.tail hin,
    rfl, rfl, rfl, rfl, rfl, rfl, rfl, rfl⟩

/-- Settles O26: the poll without a signal changes the wait and the device's answers alone. -/
theorem rwdWaits : Obligations.RwdWaits := fun rd _ hoffer =>
  ⟨_, pollInput_of_no_signal rd hoffer, rfl, fun _ => rfl, rfl, fun _ => rfl, rfl, rfl, rfl, rfl, rfl,
    rfl, rfl, rfl⟩

/-- Settles O27: the word is in the trace before the poll, and the poll finds the acknowledge. -/
theorem wwdCompletes : Obligations.WwdCompletes := by
  intro rs s es hacks
  have hack : (driveOutput (s.reg rs) s).ackEvents.headD false = true := by
    rw [driveOutput_ackEvents, hacks]; rfl
  exact ⟨_, pollOutput_of_ack hack, rfl, fun _ => rfl, npc_toNat s, fun _ => rfl, rfl,
    congrArg List.tail hacks, rfl, rfl, rfl, rfl⟩

/-- Settles O28: the port is driven before the poll, which leaves it so. -/
theorem wwdWaits : Obligations.WwdWaits := fun rs s hack =>
  ⟨_, pollOutput_of_no_ack (s := driveOutput (s.reg rs) s) hack, rfl, rfl, rfl, rfl, fun _ => rfl, rfl,
    fun _ => rfl, rfl, rfl, rfl, rfl, rfl⟩

/-- Settles O29: a halted machine stays, and a step of a wait is one poll of its device. -/
theorem waitStates : Obligations.WaitStates := by
  refine fun s => ⟨step_of_halted, fun hhalted hirq => ⟨fun rd hwait => ?_, fun hwait => ?_⟩⟩
  · rw [step_of_input_wait hhalted hirq hwait]
    constructor
    · intro hoffer
      rw [pollInput_of_no_signal (s := s.sampleIrq) rd hoffer, ← hwait]
      rfl
    · intro v hoffer
      exact ⟨_, pollInput_of_signal (s := s.sampleIrq) rd hoffer, State.reg_setReg_same _ rd v,
        fun _ hq => State.reg_setReg_other _ v hq, npc_toNat s, fun _ => rfl,
        rfl, rfl, rfl, rfl, rfl, rfl, rfl, rfl, rfl⟩
  · rw [step_of_output_wait hhalted hirq hwait]
    constructor
    · intro hack
      rw [pollOutput_of_no_ack (s := s.sampleIrq) hack, ← hwait]
      rfl
    · intro hack
      exact ⟨_, pollOutput_of_ack (s := s.sampleIrq) hack, fun _ => rfl, npc_toNat s, fun _ => rfl,
        rfl, rfl, rfl, rfl, rfl, rfl, rfl⟩

end Sys2Proof.Proofs

/-! The statements about the results of a load and of a store. -/

namespace Sys2Proof.Proofs
open Sys2Proof Sys2Proof.Machine

/-- Settles O34: a load of a word that holds a value is a register result of that value. -/
theorem lwdResult : Obligations.LwdResult := by
  intro rt rs offset s v hword
  exact ⟨_, exec_lwd_of_word hword, s.reg_setReg_same rt v, onlyResult_setReg_advance s rt v⟩

/-- Settles O36: the store always completes with the word put into memory and the pc advanced; the addressed
word and the other words follow from the laws of SWD's memory. -/
theorem swdResult : Obligations.SwdResult := by
  intro rt rs offset s
  have hexec : exec (.swd rt rs offset) s = .next _ := execSwd_eq rt rs offset s
  exact ⟨_, hexec, exec_swd_word_same hexec, fun _ => exec_swd_word_other hexec,
    fun _ => rfl, npc_toNat s, rfl, rfl, rfl, rfl, rfl, rfl, rfl, rfl, rfl⟩

end Sys2Proof.Proofs

/-! SUPPORT. How a conditional branch ends, as numbers: the target modulo 65536 and the frame. -/

namespace Sys2Proof.Machine

/-- A jump changes the pc alone. -/
theorem onlyPc_jumpTo (s : State) (p : Word) : onlyPc s (s.jumpTo p) :=
  ⟨fun _ => rfl, fun _ => rfl, rfl, rfl, rfl, rfl, rfl, rfl, rfl, rfl, rfl⟩

/-- A branch on a condition `P` completes, goes the signed offset past the next instruction if `P` holds and
to the next instruction if not, and changes the pc alone (rule R140). -/
theorem branchIf_completes {b : Bool} {P : Prop} [Decidable P] (hb : b = true ↔ P) (offset : BitVec 8)
    (s : State) :
    ∃ t, branchIf b offset s = .next t ∧ onlyPc s t ∧
      (t.pc.toNat : Int) = (s.pc.toNat + 1 + if P then offset.toInt else 0) % 65536 := by
  refine ⟨_, branchIf_next.mpr rfl, onlyPc_jumpTo s _, ?_⟩
  have hnpc := npc_toNat s
  by_cases hP : P
  · have htarget := branchTarget_toNat s.npc offset
    rw [State.jumpTo_pc, if_pos (hb.mpr hP), if_pos hP]
    omega
  · rw [State.jumpTo_pc, if_neg (mt hb.mp hP), if_neg hP]
    omega

end Sys2Proof.Machine

/-! The statements about conditional branches. -/

namespace Sys2Proof.Proofs
open Sys2Proof Sys2Proof.Machine

/-- Settles O38: each is a branch on the (in)equality of the two registers; BNE's statement lists the branch
not taken first. -/
theorem bneBeqResult : Obligations.BneBeqResult := by
  intro rs rt offset s
  constructor
  · rw [← ite_not]
    exact branchIf_completes bne_iff_ne offset s
  · exact branchIf_completes beq_iff_eq offset s

/-- Settles O39: the signed conditions are ranges of the register as a number. -/
theorem bgzBlzResult : Obligations.BgzBlzResult := by
  intro rs offset s
  have hpositive : greaterThanZero (s.reg rs) = true ↔
      1 ≤ (s.reg rs).toNat ∧ (s.reg rs).toNat ≤ 0x7FFF := by
    rw [greaterThanZero_iff]
    omega
  exact ⟨branchIf_completes hpositive offset s, branchIf_completes (lessThanZero_iff _) offset s⟩

end Sys2Proof.Proofs

/-! SUPPORT. The address a jump or call goes to, as a number, and what a call leaves for its return. -/

namespace Sys2Proof.Machine

/-! ### Targets (rule R150) -/

/-- The default target of JMP and JAL: the region of the next instruction's address, which wraps (decisions
D8, D12). -/
theorem jumpTarget_default_toNat (pc : Word) (target : BitVec 12) :
    (jumpTarget Config.jumpRegion pc target).toNat =
      (pc.toNat + 1) % 65536 / 4096 * 4096 + target.toNat := by
  have hregion : (regionAddress Config.jumpRegion pc).toNat = (pc.toNat + 1) % 65536 :=
    BitVec.toNat_add pc 1
  rw [jumpTarget_toNat, hregion]

/-- The two values of JUMP_REGION give one target exactly where the next instruction is in the jump's own
region (conflict C15). -/
theorem jumpTarget_self_eq_next_iff (pc : Word) (target : BitVec 12) :
    jumpTarget .self pc target = jumpTarget .next pc target ↔
      pc.toNat / 4096 = (pc.toNat + 1) % 65536 / 4096 := by
  have hself := jumpTarget_toNat .self pc target
  have hnext := jumpTarget_toNat .next pc target
  rw [show regionAddress .self pc = pc from rfl] at hself
  rw [show (regionAddress .next pc).toNat = (pc.toNat + 1) % 65536 from BitVec.toNat_add pc 1] at hnext
  rw [← BitVec.toNat_inj]
  omega

/-! ### Calls (rules R152, R154, R155) -/

/-- A call leaves the next instruction's address in `$2` and, besides that and the pc, changes nothing. -/
theorem link_jumpTo_frame (s : State) (p : Word) :
    ((s.link.jumpTo p).reg .r2).toNat = (s.pc.toNat + 1) % 65536 ∧
      sameRegsBut .r2 s (s.link.jumpTo p) ∧ sameMemory s (s.link.jumpTo p) ∧
      sameRest s (s.link.jumpTo p) :=
  ⟨npc_toNat s, fun _ hq => s.reg_setReg_other s.npc hq, fun _ => rfl,
    rfl, rfl, rfl, rfl, rfl, rfl, rfl, rfl, rfl⟩

/-- JRL of another register than `$2` asks no parameter. -/
theorem exec_jrl_of_ne_r2 {rs : Reg} (h : rs ≠ .r2) (s : State) :
    exec (.jrl rs) s = .next (s.link.jumpTo (s.reg rs)) :=
  (if_neg h).trans (jumpAndLink_reading h .readFirst s)

/-- Either reading of JRL is a call; they differ in the state whose register gives the target. -/
theorem jumpAndLink_calls (reading : JrlSelfLink) (rs : Reg) (s : State) :
    ∃ p, jumpAndLink reading rs s = .next (s.link.jumpTo p) ∧
      (reading = .readFirst → p = s.reg rs) ∧ (reading = .writeFirst → p = s.link.reg rs) := by
  cases reading with
  | readFirst => exact ⟨_, rfl, fun _ => rfl, nofun⟩
  | writeFirst => exact ⟨_, rfl, nofun, fun _ => rfl⟩

/-- The return from a call, wherever the call went (rule R156). -/
theorem jpr_r2_returns (s : State) (p : Word) :
    ∃ u, exec (.jpr .r2) (s.link.jumpTo p) = .next u ∧ atNext s u :=
  ⟨_, rfl, npc_toNat s⟩

end Sys2Proof.Machine

/-! The statements about jumps, calls and returns. -/

namespace Sys2Proof.Proofs
open Sys2Proof Sys2Proof.Machine

/-- Settles O40: a jump to the target in the next instruction's region. -/
theorem jmpResult : Obligations.JmpResult := fun target s =>
  ⟨_, rfl, onlyPc_jumpTo s _, jumpTarget_default_toNat s.pc target⟩

/-- Settles O41: a call of the target in the next instruction's region. -/
theorem jalResult : Obligations.JalResult := by
  intro target s
  obtain ⟨hlink, hregs, hmemory, hrest⟩ :=
    link_jumpTo_frame s (jumpTarget Config.jumpRegion s.pc target)
  exact ⟨_, rfl, hlink, hregs, jumpTarget_default_toNat s.pc target, hmemory, hrest⟩

/-- Settles O42: a jump to the register's value. -/
theorem jprResult : Obligations.JprResult := fun rs s =>
  ⟨_, rfl, rfl, onlyPc_jumpTo s (s.reg rs)⟩

/-- Settles O43: a call of the register's value. -/
theorem jrlResult : Obligations.JrlResult := fun rs s hne =>
  ⟨_, exec_jrl_of_ne_r2 hne s, rfl, link_jumpTo_frame s (s.reg rs)⟩

/-- Settles O44: under either reading a call, whose target under the second one is the link itself. -/
theorem jrlSelfResult : Obligations.JrlSelfResult := by
  intro s
  obtain ⟨p, hexec, hread, hwrite⟩ := jumpAndLink_calls Config.jrlSelfLink .r2 s
  obtain ⟨hlink, hregs, hmemory, hrest⟩ := link_jumpTo_frame s p
  refine ⟨_, hexec, hlink, hregs, hmemory, hrest, hread, fun hreading => ?_⟩
  obtain rfl : p = s.npc := hwrite hreading
  exact npc_toNat s

/-- Settles O45: the next instruction leaves the jump's region exactly at the region's last address. -/
theorem regionsAgree : Obligations.RegionsAgree := by
  intro pc target
  have hpc := pc.isLt
  rw [ne_eq (jumpTarget .self pc target), jumpTarget_self_eq_next_iff]
  constructor
  · omega
  · omega

/-- Settles O46: JAL and JRL of another register than `$2` are calls, and every call returns. -/
theorem callReturns : Obligations.CallReturns := by
  intro s
  constructor
  · intro target
    exact ⟨_, (jpr_r2_returns s (jumpTarget Config.jumpRegion s.pc target)).imp fun _ h => ⟨rfl, h⟩⟩
  · intro rs hne
    exact ⟨_, (jpr_r2_returns s (s.reg rs)).imp fun _ h => ⟨exec_jrl_of_ne_r2 hne s, h⟩⟩

end Sys2Proof.Proofs

/-! SUPPORT. The one frame of ENI and DSI. -/

namespace Sys2Proof.Machine

/-- Writing `IE` and going on to the next word changes `IE` and the pc alone (rules R162, R163). -/
theorem setIe_advance_frame (b : Bool) (s : State) :
    (State.advance { s with ie := b }).ie = b ∧ sameRegs s (State.advance { s with ie := b }) ∧
      atNext s (State.advance { s with ie := b }) ∧
      sameMemory s (State.advance { s with ie := b }) ∧
      sameRest s { State.advance { s with ie := b } with ie := s.ie } :=
  ⟨rfl, fun _ => rfl, npc_toNat s, fun _ => rfl, rfl, rfl, rfl, rfl, rfl, rfl, rfl, rfl, rfl⟩

end Sys2Proof.Machine

/-! The statements about the system instructions. -/

namespace Sys2Proof.Proofs
open Sys2Proof Sys2Proof.Machine

/-- Settles O49: HLT writes the halted flag alone. -/
theorem hltResult : Obligations.HltResult := fun _ =>
  ⟨_, rfl, rfl, fun _ => rfl, fun _ => rfl, rfl, rfl, rfl, rfl, rfl, rfl, rfl, rfl⟩

/-- Settles O50: ENI and DSI are the two writes of `IE`. -/
theorem eniDsiResult : Obligations.EniDsiResult := fun s =>
  ⟨⟨_, rfl, setIe_advance_frame true s⟩, ⟨_, rfl, setIe_advance_frame false s⟩⟩

end Sys2Proof.Proofs

/-! SUPPORT. The step by whether an interrupt is taken, and that nothing but taking one is refused. -/

namespace Sys2Proof.Machine

/-- Where an interrupt is taken the step is refused: its entry is open (rules R171, R176). -/
theorem step_of_interruptTaken {s : State} (hhalted : s.halted = false)
    (hirq : s.interruptTaken = true) : step s = .refused .interruptEntryOpen := by
  rw [step, hhalted, hirq]
  exact takeInterrupt_interruptEntry s.sampleIrq

/-- With `IE` 0 no interrupt is taken (rule R174). -/
theorem interruptTaken_of_disabled {s : State} (hie : s.ie = false) : s.interruptTaken = false := by
  rw [State.interruptTaken, hie, Bool.false_and]

/-- No instruction is refused. -/
theorem exec_ne_refused (i : Instr) (s : State) (r : Refusal) : exec i s ≠ .refused r :=
  (Proofs.onlyLoadsStop i s).1 r

/-- The cycle is never refused: a poll completes, a fetch that stops is a fault, and no instruction is
refused. -/
theorem cycle_ne_refused (s : State) (r : Refusal) : cycle s ≠ .refused r := by
  rw [cycle]
  cases s.portWait with
  | input rd => exact exec_ne_refused (.rwd rd) s r
  | output =>
    obtain ⟨t, hpoll⟩ := pollOutput_completes s
    exact hpoll ▸ nofun
  | idle =>
    cases fetchInstr s with
    | error f => exact nofun
    | ok i => exact exec_ne_refused i s r

end Sys2Proof.Machine

/-! The statements about interrupts. -/

namespace Sys2Proof.Proofs
open Sys2Proof Sys2Proof.Machine

/-- Settles O54: with `IE` 0 a step is the cycle from the state in which this step's `irq` is spent, so
neither a refusal nor that `irq` can show. -/
theorem disabledMeansDisabled : Obligations.DisabledMeansDisabled := by
  refine fun s hie => ⟨fun r => ?_, fun b c es hhalted => ?_⟩
  · cases hhalted : s.halted with
    | true => exact step_of_halted hhalted ▸ nofun
    | false =>
      rw [step_of_running hhalted (interruptTaken_of_disabled hie)]
      exact cycle_ne_refused s.sampleIrq r
  · have hspent : ∀ d, step { s with irqEvents := d :: es } = cycle { s with irqEvents := es } :=
      fun d => step_of_running (s := { s with irqEvents := d :: es }) hhalted
        (interruptTaken_of_disabled hie)
    exact (hspent b).trans (hspent c).symm

/-- Settles O53: `IE` and `irq` are what takes an interrupt. -/
theorem interruptRefused : Obligations.InterruptRefused := by
  intro s es hhalted hie hevents
  have hirq : s.interruptTaken = true := by
    rw [State.interruptTaken, State.irq, hie, hevents]
    rfl
  exact step_of_interruptTaken hhalted hirq

end Sys2Proof.Proofs

/-! SUPPORT. Which words a loaded program leaves in memory, and why a placed word is the one that the next
step runs. -/

namespace Sys2Proof.Machine

/-! ### Loading a program (rule R191) -/

/-- Loading leaves alone every address that the program does not reach; how far an address lies from the
start is counted modulo 65536 (decision D8). -/
theorem State.word_load_outside (s : State) {start a : Word} {ws : List Word}
    (h : ws.length ≤ (a - start).toNat) : (s.load start ws).word a = s.word a := by
  induction ws generalizing s start with
  | nil => rfl
  | cons w ws ih =>
    rw [List.length_cons] at h
    have hrest : ws.length ≤ (a - (start + 1)).toNat := by bv_omega
    have hne : a.toNat ≠ start.toNat := by bv_omega
    exact (ih _ hrest).trans (Memory.lookup_insert_other s.mem w hne)

/-- A program of at most 65536 words overwrites no word of its own: past its first word the rest never
comes round to the start again. -/
theorem State.word_load (s : State) (start : Word) {ws : List Word} (hlen : ws.length ≤ 65536) {k : Nat}
    (hk : k < ws.length) : (s.load start ws).word (start + BitVec.ofNat 16 k) = some ws[k] := by
  induction ws generalizing s start k with
  | nil => exact absurd hk k.not_lt_zero
  | cons w ws ih =>
    rw [List.length_cons] at hlen hk
    cases k with
    | zero =>
      have hrest : ws.length ≤ (start + BitVec.ofNat 16 0 - (start + 1)).toNat := by bv_omega
      refine (State.word_load_outside _ hrest).trans ?_
      rw [BitVec.add_zero]
      exact Memory.lookup_insert_same s.mem start.toNat w
    | succ k =>
      have hnext : start + BitVec.ofNat 16 (k + 1) = start + 1 + BitVec.ofNat 16 k := by bv_omega
      rw [hnext]
      exact ih _ _ (by omega) (by omega)

/-! ### Placing the word of the next step -/

theorem State.word_readyToRun (s : State) (w : Word) : (s.readyToRun w).word s.pc = some w :=
  Memory.lookup_insert_same s.mem s.pc.toNat w

/-- A request that would be taken is withdrawn, and any other `irq` is harmless as it stands. -/
theorem State.interruptTaken_readyToRun (s : State) (w : Word) :
    (s.readyToRun w).interruptTaken = false := by
  cases htaken : s.interruptTaken with
  | true =>
    have hirq : (s.readyToRun w).irq = false := by simp [State.irq, State.readyToRun, htaken]
    rw [State.interruptTaken, hirq, Bool.and_false]
  | false =>
    have hirq : (s.readyToRun w).irq = s.irq := by simp [State.irq, State.readyToRun, htaken]
    rw [State.interruptTaken, hirq]
    exact htaken

/-- The next step runs a placed word that decodes (rule R192). -/
theorem step_readyToRun (s : State) {w : Word} {i : Instr} (hdecode : decode w = .ok i) :
    step (s.readyToRun w) = exec i (s.readyToRun w).sampleIrq :=
  Proofs.stepRunsDecoded _ w i rfl (s.interruptTaken_readyToRun w) rfl (s.word_readyToRun w) hdecode

end Sys2Proof.Machine

namespace Sys2Proof

/-- A word of the table's 16 bits stands for itself. -/
theorem tableWord_16 (w : Nat) : tableWord 16 w = BitVec.ofNat 16 w :=
  BitVec.eq_of_toNat_eq (Nat.mod_mod w (2 ^ 16))

end Sys2Proof

/-! The statements about reset with an image, loading, and the host interface. -/

namespace Sys2Proof.Proofs
open Sys2Proof Sys2Proof.Machine

/-- Settles O59, by induction on the program: no later word falls on an earlier one. -/
theorem loadPlacesWords : Obligations.LoadPlacesWords := fun s start _ hlen _ hk =>
  s.word_load start hlen hk

/-- Settles O2: after reset no port instruction waits, so the canonical image is all the invariant asks
for; reset itself is reset with the empty image. -/
theorem resetInvariant : Obligations.ResetInvariant := by
  have himage : ∀ image : Memory, image.wf → MachineInv (State.resetWith image) :=
    fun _ hwf => machineInv_of_idle hwf rfl
  have hempty : Memory.wf [] := ⟨List.Pairwise.nil, nofun⟩
  exact ⟨himage [] hempty, himage⟩

/-- Settles O60: the state with a placed word is one whose step fetches, and the placing writes memory and
not registers or pc. -/
theorem placedWordRuns : Obligations.PlacedWordRuns := by
  intro s w i hdecode _
  rw [← tableWord_16 w] at hdecode
  exact ⟨step_readyToRun s hdecode, fun _ => rfl, rfl⟩

end Sys2Proof.Proofs
